-- ==== Sys2Proof/Word.lean ====
section
/-! DEFINITION. The machine's two data widths: the 32-bit Word of every register, bus and PC value
(spec/00_scope.md R6, R10) and the byte of the two byte-addressed memories (spec/20_memory.md R61). -/

namespace Sys2Proof

/-- A Word (R10): a 32-bit unsigned quantity. `v.toNat` is the spec's `unsigned(v)` and `v.toInt`
its `signed(v)`; `+`, `-` on Words are the spec's `+32`, `-32` (modulo 2^32). -/
abbrev Word := BitVec 32

/-- One byte of the InstructionMemory or the DataMemory (R36, R37). -/
abbrev Byte := BitVec 8

end Sys2Proof
end

