-- ==== Sys2Proof/Syntax.lean ====
section
/-! DEFINITION. The instructions: one constructor for each of the 37 rows of spec/opcode_table.json
(spec/30_encoding.md R136), with the operands each rule of spec/41 to spec/45 names. -/

namespace Sys2Proof

/-- A register index, x0 to x31 (spec/10_state.md R30). -/
abbrev RegIdx := Fin 32

/-- InstructionFormat (spec/00_scope.md, glossary). `pseudo` exists only in the assembler; no decoded
instruction has it. -/
inductive Format
  | r | i | s | sb | u | uj | pseudo
  deriving DecidableEq, Repr

/-- An instruction. An offset of the SB and UJ formats is the whole 13-bit or 21-bit byte offset of
R113 and R115; its bit 0 is not encoded and must be 0 (WellFormed.lean). A shift amount is
`instr[24:20]` (R108). The operands stand in the order of the assembly syntax (R153): a store names
its value register first. -/
inductive Instr
  -- R format, opcode 0x33 (41_integer_register.md R240 to R249)
  | add (rd rs1 rs2 : RegIdx)
  | sub (rd rs1 rs2 : RegIdx)
  | sll (rd rs1 rs2 : RegIdx)
  | slt (rd rs1 rs2 : RegIdx)
  | sltu (rd rs1 rs2 : RegIdx)
  | xor (rd rs1 rs2 : RegIdx)
  | srl (rd rs1 rs2 : RegIdx)
  | sra (rd rs1 rs2 : RegIdx)
  | or (rd rs1 rs2 : RegIdx)
  | and (rd rs1 rs2 : RegIdx)
  -- I format, opcode 0x13 (42_integer_immediate.md R260 to R268)
  | addi (rd rs1 : RegIdx) (imm : BitVec 12)
  | slti (rd rs1 : RegIdx) (imm : BitVec 12)
  | sltiu (rd rs1 : RegIdx) (imm : BitVec 12)
  | xori (rd rs1 : RegIdx) (imm : BitVec 12)
  | ori (rd rs1 : RegIdx) (imm : BitVec 12)
  | andi (rd rs1 : RegIdx) (imm : BitVec 12)
  | slli (rd rs1 : RegIdx) (shamt : BitVec 5)
  | srli (rd rs1 : RegIdx) (shamt : BitVec 5)
  | srai (rd rs1 : RegIdx) (shamt : BitVec 5)
  -- U format (43_upper_immediate.md R280, R281)
  | lui (rd : RegIdx) (imm : BitVec 20)
  | auipc (rd : RegIdx) (imm : BitVec 20)
  -- Jumps (44_control_transfer.md R292, R293)
  | jal (rd : RegIdx) (off : BitVec 21)
  | jalr (rd rs1 : RegIdx) (imm : BitVec 12)
  -- SB format, opcode 0x63 (44_control_transfer.md R295 to R300)
  | beq (rs1 rs2 : RegIdx) (off : BitVec 13)
  | bne (rs1 rs2 : RegIdx) (off : BitVec 13)
  | blt (rs1 rs2 : RegIdx) (off : BitVec 13)
  | bge (rs1 rs2 : RegIdx) (off : BitVec 13)
  | bltu (rs1 rs2 : RegIdx) (off : BitVec 13)
  | bgeu (rs1 rs2 : RegIdx) (off : BitVec 13)
  -- Loads, opcode 0x03 (45_loads_stores.md R311 to R315)
  | lb (rd rs1 : RegIdx) (imm : BitVec 12)
  | lh (rd rs1 : RegIdx) (imm : BitVec 12)
  | lw (rd rs1 : RegIdx) (imm : BitVec 12)
  | lbu (rd rs1 : RegIdx) (imm : BitVec 12)
  | lhu (rd rs1 : RegIdx) (imm : BitVec 12)
  -- Stores, opcode 0x23 (45_loads_stores.md R317 to R319)
  | sb (rs2 rs1 : RegIdx) (imm : BitVec 12)
  | sh (rs2 rs1 : RegIdx) (imm : BitVec 12)
  | sw (rs2 rs1 : RegIdx) (imm : BitVec 12)
  deriving DecidableEq, Repr

end Sys2Proof
end

