-- ==== Sys2Proof/Machine/Bits.lean ====
section
/-! DEFINITION. Bit-field, extension and byte-order helpers (spec/00_scope.md R7 to R9, R61). The bit
range `v[hi:lo]` of the spec is written `v.extractLsb' lo (hi - lo + 1)`. -/

namespace Sys2Proof

/-- R8: the low `w` bits of `v`, with bit `w-1` copied into the bits above. -/
def sext32 (v : Word) (w : Nat) : Word := (v.setWidth w).signExtend 32

/-- R9: the low `w` bits of `v`, with zeros above. -/
def zext32 (v : Word) (w : Nat) : Word := (v.setWidth w).setWidth 32

/-- R61: byte `k` of `v`, that is `v[8k+7:8k]`. -/
def byteOf (v : Word) (k : Nat) : Byte := v.extractLsb' (8 * k) 8

/-- A multiple of 4: the alignment rule of the PC and of every access (R33, R62, R70, R291). -/
abbrev aligned4 (a : Word) : Prop := a.toNat % 4 = 0

/-- A 5-bit field of an instruction word as a register index (R30). -/
def regOf (v : BitVec 5) : RegIdx := Fin.ofNat 32 v.toNat

/-- The 5-bit field of a register index. -/
def regBits (r : RegIdx) : BitVec 5 := BitVec.ofNat 5 r.val

end Sys2Proof
end

