-- ==== Sys2Proof/Decode.lean ====
section
/-! DEFINITION. The decoder, total on every 32-bit word and rejecting by name (spec/30_encoding.md R121
to R129, R135, R140); after it the encoder (R102 to R108) and the opcode map (R136). -/

namespace Sys2Proof

/-! ## The fixed fields (R101) -/

/-- `instr[6:0]`. -/
def opcodeOf (w : Word) : BitVec 7 := w.extractLsb' 0 7
/-- `instr[14:12]`. -/
def funct3Of (w : Word) : BitVec 3 := w.extractLsb' 12 3
/-- `instr[31:25]`. -/
def funct7Of (w : Word) : BitVec 7 := w.extractLsb' 25 7
/-- rd, `instr[11:7]`. -/
def rdOf (w : Word) : RegIdx := regOf (w.extractLsb' 7 5)
/-- rs1, `instr[19:15]`. -/
def rs1Of (w : Word) : RegIdx := regOf (w.extractLsb' 15 5)
/-- rs2, `instr[24:20]`. -/
def rs2Of (w : Word) : RegIdx := regOf (w.extractLsb' 20 5)

/-! ## The immediate fields of each format -/

/-- R103: imm[11:0] of the I format. -/
def immIOf (w : Word) : BitVec 12 := w.extractLsb' 20 12
/-- R104: imm[11:0] of the S format. -/
def immSOf (w : Word) : BitVec 12 := w.extractLsb' 25 7 ++ w.extractLsb' 7 5
/-- R105: the 13-bit offset of the SB format, bit 0 being 0. -/
def immSBOf (w : Word) : BitVec 13 :=
  w.extractLsb' 31 1 ++ w.extractLsb' 7 1 ++ w.extractLsb' 25 6 ++ w.extractLsb' 8 4 ++ 0#1
/-- R106: imm[31:12] of the U format. -/
def immUOf (w : Word) : BitVec 20 := w.extractLsb' 12 20
/-- R107: the 21-bit offset of the UJ format, bit 0 being 0. -/
def immUJOf (w : Word) : BitVec 21 :=
  w.extractLsb' 31 1 ++ w.extractLsb' 12 8 ++ w.extractLsb' 20 1 ++ w.extractLsb' 21 10 ++ 0#1
/-- R108: the shift amount of SLLI, SRLI and SRAI. -/
def shamtOf (w : Word) : BitVec 5 := w.extractLsb' 20 5

/-! ## The decoder -/

/-- What a word decodes to: an instruction, or one of the two decode faults (R401 codes 3 and 4). -/
inductive Decoded
  | ok (i : Instr)
  /-- R122: the opcode is none of the nine. -/
  | illegalOpcode
  /-- R123 to R129: the funct3/funct7 combination selects no instruction. -/
  | unmappedFunct
  deriving DecidableEq, Repr

/-- R123: opcode 0x33. -/
def decodeR (w : Word) : Decoded :=
  let rd := rdOf w
  let rs1 := rs1Of w
  let rs2 := rs2Of w
  if funct7Of w = 0x00#7 then
    match funct3Of w with
    | 0b000#3 => .ok (.add rd rs1 rs2)
    | 0b001#3 => .ok (.sll rd rs1 rs2)
    | 0b010#3 => .ok (.slt rd rs1 rs2)
    | 0b011#3 => .ok (.sltu rd rs1 rs2)
    | 0b100#3 => .ok (.xor rd rs1 rs2)
    | 0b101#3 => .ok (.srl rd rs1 rs2)
    | 0b110#3 => .ok (.or rd rs1 rs2)
    | _ => .ok (.and rd rs1 rs2)
  else if funct7Of w = 0x20#7 then
    match funct3Of w with
    | 0b000#3 => .ok (.sub rd rs1 rs2)
    | 0b101#3 => .ok (.sra rd rs1 rs2)
    | _ => .unmappedFunct
  else .unmappedFunct

/-- R124: opcode 0x13. `instr[31:25]` is consulted for the shifts only (C1, D7). -/
def decodeI (w : Word) : Decoded :=
  let rd := rdOf w
  let rs1 := rs1Of w
  match funct3Of w with
  | 0b000#3 => .ok (.addi rd rs1 (immIOf w))
  | 0b001#3 => if funct7Of w = 0x00#7 then .ok (.slli rd rs1 (shamtOf w)) else .unmappedFunct
  | 0b010#3 => .ok (.slti rd rs1 (immIOf w))
  | 0b011#3 => .ok (.sltiu rd rs1 (immIOf w))
  | 0b100#3 => .ok (.xori rd rs1 (immIOf w))
  | 0b101#3 =>
    if funct7Of w = 0x00#7 then .ok (.srli rd rs1 (shamtOf w))
    else if funct7Of w = 0x20#7 then .ok (.srai rd rs1 (shamtOf w))
    else .unmappedFunct
  | 0b110#3 => .ok (.ori rd rs1 (immIOf w))
  | _ => .ok (.andi rd rs1 (immIOf w))

/-- R127: opcode 0x03. -/
def decodeLoad (w : Word) : Decoded :=
  match funct3Of w with
  | 0b000#3 => .ok (.lb (rdOf w) (rs1Of w) (immIOf w))
  | 0b001#3 => .ok (.lh (rdOf w) (rs1Of w) (immIOf w))
  | 0b010#3 => .ok (.lw (rdOf w) (rs1Of w) (immIOf w))
  | 0b100#3 => .ok (.lbu (rdOf w) (rs1Of w) (immIOf w))
  | 0b101#3 => .ok (.lhu (rdOf w) (rs1Of w) (immIOf w))
  | _ => .unmappedFunct

/-- R128: opcode 0x23. -/
def decodeStore (w : Word) : Decoded :=
  match funct3Of w with
  | 0b000#3 => .ok (.sb (rs2Of w) (rs1Of w) (immSOf w))
  | 0b001#3 => .ok (.sh (rs2Of w) (rs1Of w) (immSOf w))
  | 0b010#3 => .ok (.sw (rs2Of w) (rs1Of w) (immSOf w))
  | _ => .unmappedFunct

/-- R126: opcode 0x63. -/
def decodeBranch (w : Word) : Decoded :=
  match funct3Of w with
  | 0b000#3 => .ok (.beq (rs1Of w) (rs2Of w) (immSBOf w))
  | 0b001#3 => .ok (.bne (rs1Of w) (rs2Of w) (immSBOf w))
  | 0b100#3 => .ok (.blt (rs1Of w) (rs2Of w) (immSBOf w))
  | 0b101#3 => .ok (.bge (rs1Of w) (rs2Of w) (immSBOf w))
  | 0b110#3 => .ok (.bltu (rs1Of w) (rs2Of w) (immSBOf w))
  | 0b111#3 => .ok (.bgeu (rs1Of w) (rs2Of w) (immSBOf w))
  | _ => .unmappedFunct

/-- R129: opcode 0x67. -/
def decodeJalr (w : Word) : Decoded :=
  if funct3Of w = 0b000#3 then .ok (.jalr (rdOf w) (rs1Of w) (immIOf w)) else .unmappedFunct

/-- The decoder (R120, R121, R122, R135): the opcode first, the funct fields second. -/
def decode (w : Word) : Decoded :=
  match opcodeOf w with
  | 0x33#7 => decodeR w
  | 0x13#7 => decodeI w
  | 0x03#7 => decodeLoad w
  | 0x67#7 => decodeJalr w
  | 0x23#7 => decodeStore w
  | 0x63#7 => decodeBranch w
  | 0x6F#7 => .ok (.jal (rdOf w) (immUJOf w))
  | 0x37#7 => .ok (.lui (rdOf w) (immUOf w))
  | 0x17#7 => .ok (.auipc (rdOf w) (immUOf w))
  | _ => .illegalOpcode

/-- The instruction this decoder reads from the table-numbered bits `w` of an `nbits`-bit row. A word is
stored and fetched little-endian (R61), so bit 0 of the table's numbering is bit 0 of the Word. -/
def decodeTableWord (nbits w : Nat) : Option Instr :=
  match decode (BitVec.ofNat 32 (w % 2 ^ nbits)) with
  | .ok i => some i
  | .illegalOpcode => none
  | .unmappedFunct => none

/-! ## The encoder -/

/-- R102. -/
def encodeR (f7 : BitVec 7) (rs2 rs1 : RegIdx) (f3 : BitVec 3) (rd : RegIdx) (op : BitVec 7) : Word :=
  f7 ++ regBits rs2 ++ regBits rs1 ++ f3 ++ regBits rd ++ op

/-- R103. -/
def encodeI (imm : BitVec 12) (rs1 : RegIdx) (f3 : BitVec 3) (rd : RegIdx) (op : BitVec 7) : Word :=
  imm ++ regBits rs1 ++ f3 ++ regBits rd ++ op

/-- R108: the I format with its immediate split into the funct7 position and the shift amount. -/
def encodeShift (f7 : BitVec 7) (shamt : BitVec 5) (rs1 : RegIdx) (f3 : BitVec 3) (rd : RegIdx)
    (op : BitVec 7) : Word :=
  f7 ++ shamt ++ regBits rs1 ++ f3 ++ regBits rd ++ op

/-- R104. -/
def encodeS (imm : BitVec 12) (rs2 rs1 : RegIdx) (f3 : BitVec 3) (op : BitVec 7) : Word :=
  imm.extractLsb' 5 7 ++ regBits rs2 ++ regBits rs1 ++ f3 ++ imm.extractLsb' 0 5 ++ op

/-- R105. -/
def encodeSB (off : BitVec 13) (rs2 rs1 : RegIdx) (f3 : BitVec 3) (op : BitVec 7) : Word :=
  off.extractLsb' 12 1 ++ off.extractLsb' 5 6 ++ regBits rs2 ++ regBits rs1 ++ f3
    ++ off.extractLsb' 1 4 ++ off.extractLsb' 11 1 ++ op

/-- R106. -/
def encodeU (imm : BitVec 20) (rd : RegIdx) (op : BitVec 7) : Word := imm ++ regBits rd ++ op

/-- R107. -/
def encodeUJ (off : BitVec 21) (rd : RegIdx) (op : BitVec 7) : Word :=
  off.extractLsb' 20 1 ++ off.extractLsb' 1 10 ++ off.extractLsb' 11 1 ++ off.extractLsb' 12 8
    ++ regBits rd ++ op

/-- The word of a well-formed instruction. -/
def encode : Instr → Word
  | .add rd rs1 rs2 => encodeR 0x00 rs2 rs1 0b000 rd 0x33
  | .sub rd rs1 rs2 => encodeR 0x20 rs2 rs1 0b000 rd 0x33
  | .sll rd rs1 rs2 => encodeR 0x00 rs2 rs1 0b001 rd 0x33
  | .slt rd rs1 rs2 => encodeR 0x00 rs2 rs1 0b010 rd 0x33
  | .sltu rd rs1 rs2 => encodeR 0x00 rs2 rs1 0b011 rd 0x33
  | .xor rd rs1 rs2 => encodeR 0x00 rs2 rs1 0b100 rd 0x33
  | .srl rd rs1 rs2 => encodeR 0x00 rs2 rs1 0b101 rd 0x33
  | .sra rd rs1 rs2 => encodeR 0x20 rs2 rs1 0b101 rd 0x33
  | .or rd rs1 rs2 => encodeR 0x00 rs2 rs1 0b110 rd 0x33
  | .and rd rs1 rs2 => encodeR 0x00 rs2 rs1 0b111 rd 0x33
  | .addi rd rs1 imm => encodeI imm rs1 0b000 rd 0x13
  | .slti rd rs1 imm => encodeI imm rs1 0b010 rd 0x13
  | .sltiu rd rs1 imm => encodeI imm rs1 0b011 rd 0x13
  | .xori rd rs1 imm => encodeI imm rs1 0b100 rd 0x13
  | .ori rd rs1 imm => encodeI imm rs1 0b110 rd 0x13
  | .andi rd rs1 imm => encodeI imm rs1 0b111 rd 0x13
  | .slli rd rs1 shamt => encodeShift 0x00 shamt rs1 0b001 rd 0x13
  | .srli rd rs1 shamt => encodeShift 0x00 shamt rs1 0b101 rd 0x13
  | .srai rd rs1 shamt => encodeShift 0x20 shamt rs1 0b101 rd 0x13
  | .lui rd imm => encodeU imm rd 0x37
  | .auipc rd imm => encodeU imm rd 0x17
  | .jal rd off => encodeUJ off rd 0x6F
  | .jalr rd rs1 imm => encodeI imm rs1 0b000 rd 0x67
  | .beq rs1 rs2 off => encodeSB off rs2 rs1 0b000 0x63
  | .bne rs1 rs2 off => encodeSB off rs2 rs1 0b001 0x63
  | .blt rs1 rs2 off => encodeSB off rs2 rs1 0b100 0x63
  | .bge rs1 rs2 off => encodeSB off rs2 rs1 0b101 0x63
  | .bltu rs1 rs2 off => encodeSB off rs2 rs1 0b110 0x63
  | .bgeu rs1 rs2 off => encodeSB off rs2 rs1 0b111 0x63
  | .lb rd rs1 imm => encodeI imm rs1 0b000 rd 0x03
  | .lh rd rs1 imm => encodeI imm rs1 0b001 rd 0x03
  | .lw rd rs1 imm => encodeI imm rs1 0b010 rd 0x03
  | .lbu rd rs1 imm => encodeI imm rs1 0b100 rd 0x03
  | .lhu rd rs1 imm => encodeI imm rs1 0b101 rd 0x03
  | .sb rs2 rs1 imm => encodeS imm rs2 rs1 0b000 0x23
  | .sh rs2 rs1 imm => encodeS imm rs2 rs1 0b001 0x23
  | .sw rs2 rs1 imm => encodeS imm rs2 rs1 0b010 0x23

/-! ## The opcode map (R136) -/

/-- A row of R136's table: a word is the row's instruction when `instr & mask = pattern`. -/
structure OpcodeRow where
  mnemonic : String
  format : Format
  pattern : Word
  mask : Word
  deriving DecidableEq, Repr

/-- The row of an instruction, as R136 and spec/opcode_table.json print it. -/
def Instr.row : Instr → OpcodeRow
  | .add _ _ _ => ⟨"ADD", .r, 0x00000033, 0xFE00707F⟩
  | .sub _ _ _ => ⟨"SUB", .r, 0x40000033, 0xFE00707F⟩
  | .sll _ _ _ => ⟨"SLL", .r, 0x00001033, 0xFE00707F⟩
  | .slt _ _ _ => ⟨"SLT", .r, 0x00002033, 0xFE00707F⟩
  | .sltu _ _ _ => ⟨"SLTU", .r, 0x00003033, 0xFE00707F⟩
  | .xor _ _ _ => ⟨"XOR", .r, 0x00004033, 0xFE00707F⟩
  | .srl _ _ _ => ⟨"SRL", .r, 0x00005033, 0xFE00707F⟩
  | .sra _ _ _ => ⟨"SRA", .r, 0x40005033, 0xFE00707F⟩
  | .or _ _ _ => ⟨"OR", .r, 0x00006033, 0xFE00707F⟩
  | .and _ _ _ => ⟨"AND", .r, 0x00007033, 0xFE00707F⟩
  | .addi _ _ _ => ⟨"ADDI", .i, 0x00000013, 0x0000707F⟩
  | .slti _ _ _ => ⟨"SLTI", .i, 0x00002013, 0x0000707F⟩
  | .sltiu _ _ _ => ⟨"SLTIU", .i, 0x00003013, 0x0000707F⟩
  | .xori _ _ _ => ⟨"XORI", .i, 0x00004013, 0x0000707F⟩
  | .ori _ _ _ => ⟨"ORI", .i, 0x00006013, 0x0000707F⟩
  | .andi _ _ _ => ⟨"ANDI", .i, 0x00007013, 0x0000707F⟩
  | .slli _ _ _ => ⟨"SLLI", .i, 0x00001013, 0xFE00707F⟩
  | .srli _ _ _ => ⟨"SRLI", .i, 0x00005013, 0xFE00707F⟩
  | .srai _ _ _ => ⟨"SRAI", .i, 0x40005013, 0xFE00707F⟩
  | .lui _ _ => ⟨"LUI", .u, 0x00000037, 0x0000007F⟩
  | .auipc _ _ => ⟨"AUIPC", .u, 0x00000017, 0x0000007F⟩
  | .jal _ _ => ⟨"JAL", .uj, 0x0000006F, 0x0000007F⟩
  | .jalr _ _ _ => ⟨"JALR", .i, 0x00000067, 0x0000707F⟩
  | .beq _ _ _ => ⟨"BEQ", .sb, 0x00000063, 0x0000707F⟩
  | .bne _ _ _ => ⟨"BNE", .sb, 0x00001063, 0x0000707F⟩
  | .blt _ _ _ => ⟨"BLT", .sb, 0x00004063, 0x0000707F⟩
  | .bge _ _ _ => ⟨"BGE", .sb, 0x00005063, 0x0000707F⟩
  | .bltu _ _ _ => ⟨"BLTU", .sb, 0x00006063, 0x0000707F⟩
  | .bgeu _ _ _ => ⟨"BGEU", .sb, 0x00007063, 0x0000707F⟩
  | .lb _ _ _ => ⟨"LB", .i, 0x00000003, 0x0000707F⟩
  | .lh _ _ _ => ⟨"LH", .i, 0x00001003, 0x0000707F⟩
  | .lw _ _ _ => ⟨"LW", .i, 0x00002003, 0x0000707F⟩
  | .lbu _ _ _ => ⟨"LBU", .i, 0x00004003, 0x0000707F⟩
  | .lhu _ _ _ => ⟨"LHU", .i, 0x00005003, 0x0000707F⟩
  | .sb _ _ _ => ⟨"SB", .s, 0x00000023, 0x0000707F⟩
  | .sh _ _ _ => ⟨"SH", .s, 0x00001023, 0x0000707F⟩
  | .sw _ _ _ => ⟨"SW", .s, 0x00002023, 0x0000707F⟩

/-- One instruction of each register-register row. -/
def rowsRegister : List Instr :=
  [.add 0 0 0, .sub 0 0 0, .sll 0 0 0, .slt 0 0 0, .sltu 0 0 0, .xor 0 0 0, .srl 0 0 0, .sra 0 0 0,
    .or 0 0 0, .and 0 0 0]

/-- One instruction of each register-immediate row. -/
def rowsImmediate : List Instr :=
  [.addi 0 0 0, .slti 0 0 0, .sltiu 0 0 0, .xori 0 0 0, .ori 0 0 0, .andi 0 0 0, .slli 0 0 0,
    .srli 0 0 0, .srai 0 0 0]

/-- One instruction of each upper-immediate, jump and branch row. -/
def rowsControl : List Instr :=
  [.lui 0 0, .auipc 0 0, .jal 0 0, .jalr 0 0 0, .beq 0 0 0, .bne 0 0 0, .blt 0 0 0, .bge 0 0 0,
    .bltu 0 0 0, .bgeu 0 0 0]

/-- One instruction of each load and store row. -/
def rowsMemory : List Instr :=
  [.lb 0 0 0, .lh 0 0 0, .lw 0 0 0, .lbu 0 0 0, .lhu 0 0 0, .sb 0 0 0, .sh 0 0 0, .sw 0 0 0]

/-- One instruction of every row, in the table's order. -/
def rowInstrs : List Instr := rowsRegister ++ rowsImmediate ++ rowsControl ++ rowsMemory

/-- The opcode map: the 37 rows of R136. -/
def opcodeMap : List OpcodeRow := rowInstrs.map Instr.row

end Sys2Proof
end

