-- ==== Sys2Proof/Machine/Alu.lean ====
section
/-! DEFINITION. The ALU (spec/40_datapath.md R200 to R204): a pure function of two Words and one of
eleven operations. It has no flags and no carry output (R203). The operation is a closed
enumeration, so an undefined operation cannot be asked for (R204, U1; log entry 11). -/

namespace Sys2Proof.Machine

/-- The ALU operations (R200). NOT is selected by no instruction (R130). -/
inductive AluOp
  | add | sub | and | or | xor | not | sll | srl | sra | slt | sltu
  deriving DecidableEq, Repr

/-- A shift uses the low 5 bits of operand B only (R201, R202). -/
def shiftAmount (b : Word) : Nat := (b.extractLsb' 0 5).toNat

/-- The ALU result (R201). SLT and SLTU give 1 or 0. -/
def alu (a b : Word) : AluOp → Word
  | .add => a + b
  | .sub => a - b
  | .and => a &&& b
  | .or => a ||| b
  | .xor => a ^^^ b
  | .not => ~~~a
  | .sll => a <<< shiftAmount b
  | .srl => a >>> shiftAmount b
  | .sra => a.sshiftRight (shiftAmount b)
  | .slt => if a.toInt < b.toInt then 1 else 0
  | .sltu => if a.toNat < b.toNat then 1 else 0

end Sys2Proof.Machine
end

