-- ==== Sys2Proof/Machine/Flags.lean ====
section
/-! DEFINITION. There are no status flags (spec/10_state.md R38). What stands in their place is the
BranchComparator, whose two outputs are computed afresh in every cycle and consumed in it
(spec/40_datapath.md R205), and the branch-taken rule that consumes them (spec/30_encoding.md R132). -/

namespace Sys2Proof.Machine

/-- The BranchComparator's outputs. -/
structure Comparison where
  equal : Bool
  lessThan : Bool
  deriving DecidableEq, Repr

/-- The BranchComparator (R205); `uns` is branchUnsigned. -/
def branchComparator (v1 v2 : Word) (uns : Bool) : Comparison where
  equal := decide (v1 = v2)
  lessThan := if uns then decide (v1.toNat < v2.toNat) else decide (v1.toInt < v2.toInt)

/-- The comparison kind of a branch (R126). BLTU and BGEU are kinds blt and bge, compared unsigned. -/
inductive BranchKind
  | beq | bne | blt | bge
  deriving DecidableEq, Repr

/-- The branch-taken rule (R132). -/
def branchTaken (k : BranchKind) (c : Comparison) : Bool :=
  match k with
  | .beq => c.equal
  | .bne => !c.equal
  | .blt => c.lessThan
  | .bge => !c.lessThan

end Sys2Proof.Machine
end

