-- ==== Sys2Proof/Machine/Operands.lean ====
section
/-! DEFINITION. The operand forms: the immediates of the five formats that have one, as values of an
instruction's operand (spec/30_encoding.md R111 to R115), and the ImmediateGenerator itself, in the
source's slice terms (R110, R116). -/

namespace Sys2Proof.Machine

/-- R111: the 12-bit immediate of an I-format instruction, sign-extended. -/
def immI (imm : BitVec 12) : Word := imm.signExtend 32

/-- R112: the 12-bit immediate of a store, sign-extended. -/
def immS (imm : BitVec 12) : Word := imm.signExtend 32

/-- R113: the 13-bit byte offset of a branch, sign-extended. -/
def immSB (off : BitVec 13) : Word := off.signExtend 32

/-- R114: the 20 upper bits over twelve zeros. -/
def immU (imm : BitVec 20) : Word := imm ++ 0#12

/-- R115: the 21-bit byte offset of JAL, sign-extended. -/
def immUJ (off : BitVec 21) : Word := off.signExtend 32

/-- R108, R266 to R268: a shift-immediate's shift amount as the ALU's operand B. The ALU takes only
its low 5 bits (R202), so SRAI's bit 30 never enters. -/
def immShamt (shamt : BitVec 5) : Word := shamt.setWidth 32

/-- R280: the register that LUI's operand A names under `LUI_A_OPERAND = rs1`: `instr[19:15]`, which
is `imm[7:3]` of its 20-bit operand. -/
def luiRs1 (imm : BitVec 20) : RegIdx := regOf (imm.extractLsb' 3 5)

/-- The ImmediateGenerator (R110 to R116): `slice` is `instr[31:7]`, so `slice[k] = instr[7+k]`. The R
format and any format it does not recognise give 0 (R116). -/
def immGen (slice : BitVec 25) : Format → Word
  | .i => (slice.extractLsb' 13 12).signExtend 32
  | .s => (slice.extractLsb' 18 7 ++ slice.extractLsb' 0 5).signExtend 32
  | .sb =>
    (slice.extractLsb' 24 1 ++ slice.extractLsb' 0 1 ++ slice.extractLsb' 18 6
      ++ slice.extractLsb' 1 4 ++ 0#1).signExtend 32
  | .u => slice.extractLsb' 5 20 ++ 0#12
  | .uj =>
    (slice.extractLsb' 24 1 ++ slice.extractLsb' 5 8 ++ slice.extractLsb' 13 1
      ++ slice.extractLsb' 14 10 ++ 0#1).signExtend 32
  | .r => 0
  | .pseudo => 0

end Sys2Proof.Machine
end

