-- ==== Sys2Proof/Config.lean ====
section
/-! DEFINITION. The construction and launch parameters of the machine (spec/00_scope.md R6). They are
fixed when a machine is built and no step changes them. They stand in `State` as plain data (log
entry 1), so every statement about all states is a statement about all values of the parameters. -/

namespace Sys2Proof

/-- The parameter LUI_A_OPERAND (R6, R280, D8): which value LUI adds its immediate to. -/
inductive LuiAOperand
  /-- The default: operand A is 0, so LUI writes the immediate alone. -/
  | zero
  /-- The source's literal signal rule: operand A is the register named by `instr[19:15]`. -/
  | rs1
  deriving DecidableEq, Repr

/-- The parameters of R6 that outlive the launch. MAX_STEPS, the program and the preloaded values
are arguments of the launch and of the driver's run (Machine/Launch.lean, Machine/Run.lean). -/
structure Config where
  /-- IMEM_WORDS: the InstructionMemory's size in 32-bit words. -/
  imemWords : Nat
  /-- DMEM_WORDS: the DataMemory's size in 32-bit words, chosen independently. -/
  dmemWords : Nat
  /-- RESET_PC: the PC at the start of a run. -/
  resetPc : Word
  /-- LUI_A_OPERAND. -/
  luiAOperand : LuiAOperand
  deriving DecidableEq, Repr

/-- The range D6 gives the two word counts: from 1 to 2^30, which is the whole 32-bit byte space. -/
abbrev Config.ok (c : Config) : Prop :=
  (1 ≤ c.imemWords ∧ c.imemWords ≤ 2 ^ 30) ∧ (1 ≤ c.dmemWords ∧ c.dmemWords ≤ 2 ^ 30)

end Sys2Proof
end

