-- ==== Sys2Proof/Machine/Defaults.lean ====
section
/-! DEFINITION. The parameters that `State.reset` is built with. RESET_PC and LUI_A_OPERAND have the
defaults the spec gives (spec/00_scope.md R6; D2, D8). The spec gives IMEM_WORDS and DMEM_WORDS no
default: 64 and 128 are the values its own test vectors assume (spec/95_test_vectors.md,
Conventions). DESIGN CHOICE, unsafe: log entry 1. -/

namespace Sys2Proof.Machine

/-- The configuration of `State.reset`. -/
def defaultConfig : Config where
  imemWords := 64
  dmemWords := 128
  resetPc := 0x00000000#32
  luiAOperand := .zero

end Sys2Proof.Machine
end

