-- ==== Sys2Proof/Machine/Memory.lean ====
section
/-! DEFINITION. A byte-addressed memory and its accesses (spec/10_state.md R36, R37; spec/20_memory.md).
It is a list of (address, byte) pairs in one canonical form: addresses strictly rising, and no entry
equal to what an unlisted address reads as. The size is not here but in the configuration (log entry 16). -/

namespace Sys2Proof.Machine

/-- The listed bytes of a memory. -/
abbrev Memory := List Host.Cell

/-- What an address that nothing has loaded, preloaded or stored to reads as: 0 (R44, R452 step 1). -/
def blankByte : Byte := 0

/-- The canonical form. -/
abbrev Memory.wf (m : Memory) : Prop :=
  m.Pairwise (fun c d => c.1 < d.1) ∧ ∀ c ∈ m, c.2 ≠ blankByte

/-- Every listed address lies below `bytes`, the size of the array (R36, R37). -/
abbrev Memory.within (m : Memory) (bytes : Nat) : Prop := ∀ c ∈ m, c.1 < bytes

/-- The byte at an address. -/
def Memory.read : Memory → Nat → Byte
  | [], _ => blankByte
  | (k, b) :: rest, a => if k = a then b else Memory.read rest a

/-- `rest` with the byte `b` listed at `a` in front, or `rest` alone where `b` is the blank byte. -/
def consCell (a : Nat) (b : Byte) (rest : Memory) : Memory :=
  if b = blankByte then rest else (a, b) :: rest

/-- The memory with the byte at an address replaced. -/
def Memory.write : Memory → Nat → Byte → Memory
  | [], a, b => consCell a b []
  | (k, c) :: rest, a, b =>
    if a < k then consCell a b ((k, c) :: rest)
    else if a = k then consCell a b rest
    else (k, c) :: Memory.write rest a b

/-- loadStoreSize (R60, R69, R131). -/
inductive AccessSize
  | byte | half | word
  deriving DecidableEq, Repr

/-- The number of bytes an access moves (R69). -/
def AccessSize.bytes : AccessSize → Nat
  | .byte => 1
  | .half => 2
  | .word => 4

/-- The little-endian value of the bytes from `a` on, right-justified in a Word (R61, R66, R70). -/
def Memory.readLE (m : Memory) (a : Nat) : AccessSize → Word
  | .byte => (m.read a).setWidth 32
  | .half => (m.read (a + 1) ++ m.read a).setWidth 32
  | .word => m.read (a + 3) ++ m.read (a + 2) ++ m.read (a + 1) ++ m.read a

/-- The memory with the low `n` bytes of `v` stored from `a` on, little-endian (R61, R67). -/
def Memory.writeLE (m : Memory) (a : Nat) (v : Word) : Nat → Memory
  | 0 => m
  | n + 1 => (Memory.writeLE m a v n).write (a + n) (byteOf v n)

/-- The two ways an address can be bad for an access of `n` bytes to an array of `words` words, the
first to be reported first (R62, R63, R64, R70; D16, D17). -/
inductive AddrFault
  | misaligned
  | outOfRange
  deriving DecidableEq, Repr

/-- R66, R67 and R70's two checks, in their order; the sum is on unbounded integers (R63). -/
def addrFault (words : Nat) (addr : Word) (n : Nat) : Option AddrFault :=
  if ¬ aligned4 addr then some .misaligned
  else if addr.toNat + n > 4 * words then some .outOfRange
  else none

end Sys2Proof.Machine
end

