-- ==== Sys2Proof/Machine/State.lean ====
section
/-! DEFINITION. The architectural state (spec/10_state.md): exactly the five pieces of its opening
table, and the construction parameters of spec/00_scope.md R6. Also the host's reasons for a step
that gives no next state. -/

namespace Sys2Proof.Machine

/-- The reason of a fatal fault, with the Word it records (spec/60_exceptions.md R401). These are part
of the run status, so of the state; they are not the host's `Fault` below. -/
inductive FaultReason
  /-- Code 1: `pc mod 4 ≠ 0` at fetch (R70). -/
  | fetchMisaligned (addr : Word)
  /-- Code 2: `pc + 4 > 4*IMEM_WORDS` at fetch (R70). -/
  | fetchOutOfRange (addr : Word)
  /-- Code 3: the word's opcode is not in the opcode map (R122). -/
  | illegalOpcode (instr : Word)
  /-- Code 4: a known opcode with a funct3/funct7 that selects no instruction (R123 to R129). -/
  | unmappedFunct (instr : Word)
  /-- Code 5: a load or store with `ea mod 4 ≠ 0` (R62). -/
  | dataMisaligned (addr : Word)
  /-- Code 6: a load or store with `ea + size > 4*DMEM_WORDS` (R63). -/
  | dataOutOfRange (addr : Word)
  /-- Code 7: a jump or taken branch whose target is not a multiple of 4 (R291). -/
  | targetMisaligned (target : Word)
  deriving DecidableEq, Repr

/-- The run status (R43). -/
inductive Status
  | running
  | faulted (reason : FaultReason)
  deriving DecidableEq, Repr

/-- The architectural state. -/
structure State where
  /-- x0 to x31 (R30). Slot 0 holds 0 in every reachable state; reads and writes go through
  `State.getReg` and `State.setReg` (R31; log entry 5). -/
  regs : Vector Word 32
  /-- The ProgramCounter: during a cycle, the address of the instruction being executed (R33, R34). -/
  pc : Word
  /-- The InstructionMemory, read-only to programs (R36). -/
  imem : Memory
  /-- The DataMemory (R37). -/
  dmem : Memory
  /-- Running or Faulted(reason) (R43). -/
  status : Status
  /-- The construction parameters; no step changes them (R6, R36). -/
  cfg : Config
  deriving DecidableEq, Repr

/-- Why a step has no next state. The spec's own faults are not here: they give a next state whose
status is Faulted (R217). -/
inductive Fault
  /-- Raised by `step` alone, on a state whose status is Faulted: such a state "has no step" (R217,
  R402). Safe: the machine stops where the spec's machine stops. -/
  | runEnded (reason : FaultReason)
  deriving DecidableEq, Repr

/-- Why an instruction has no meaning. -/
inductive Refusal
  /-- Raised by an arm of `exec` that has no meaning yet; no arm raises it now. Safe. -/
  | notModelled (mnemonic : String)
  deriving DecidableEq, Repr

/-- What an instruction's meaning answers. -/
abbrev Result := Host.Outcome State Fault Refusal

/-- The state at the start of a run (R44, R451) that loads no program and preloads nothing, with the
parameters of Defaults.lean. How a program comes to run is log entry 2. -/
def State.reset : State where
  regs := Vector.replicate 32 0
  pc := defaultConfig.resetPc
  imem := []
  dmem := []
  status := .running
  cfg := defaultConfig

end Sys2Proof.Machine
end

