-- ==== Sys2Proof/Machine/Ops.lean ====
section
/-! DEFINITION. The operations over registers, memories and the status that the meanings share: each
register and memory access in one place, raising a fault, and the four ways a cycle commits
(spec/40_datapath.md R213 to R216). A meaning reads the state as it stood at the start of the cycle
and commits every write at once, or raises a fault and commits nothing (spec/00_scope.md R13). -/

namespace Sys2Proof.Machine

/-! ## The RegisterFile (R31, R32) -/

/-- Read a register; x0 reads as 0 (R31). -/
def State.getReg (s : State) (r : RegIdx) : Word := if r = 0 then 0 else s.regs[r]

/-- Write a register; a write to x0 has no effect (R31, R214). -/
def State.setReg (s : State) (r : RegIdx) (v : Word) : State :=
  if r = 0 then s else { s with regs := s.regs.set r v }

/-! ## The ProgramCounter (R34, R35) -/

/-- Write the ProgramCounter. -/
def State.setPc (s : State) (target : Word) : State := { s with pc := target }

/-- `pc +32 4`: the next sequential instruction, and the link value (R34, R213; wraps, D26). -/
def State.pcPlus4 (s : State) : Word := s.pc + 4

/-! ## Faults (R400, R402, R403, R216)

There is no trap entry, no handler and no return from one (R407, R408): a fault changes nothing but
the status. -/

/-- Raise a fault: none of the instruction's writes are committed, the PC keeps the address of the
faulting instruction, and the status becomes Faulted(reason) (R400). -/
def State.raise (s : State) (reason : FaultReason) : State := { s with status := .faulted reason }

/-- The outcome of an instruction that raises a fault: the Faulted successor state (R217). -/
def raiseFault (reason : FaultReason) (s : State) : Result := .next (s.raise reason)

/-- R401's code of a reason, seen by the host only. -/
def FaultReason.code : FaultReason → Nat
  | .fetchMisaligned _ => 1
  | .fetchOutOfRange _ => 2
  | .illegalOpcode _ => 3
  | .unmappedFunct _ => 4
  | .dataMisaligned _ => 5
  | .dataOutOfRange _ => 6
  | .targetMisaligned _ => 7

/-- R401's recorded Word of a reason: the address, the instruction or the target. -/
def FaultReason.info : FaultReason → Word
  | .fetchMisaligned a => a
  | .fetchOutOfRange a => a
  | .illegalOpcode w => w
  | .unmappedFunct w => w
  | .dataMisaligned a => a
  | .dataOutOfRange a => a
  | .targetMisaligned t => t

/-! ## The InstructionMemory (R70) -/

/-- `IMemRead(pc)`. -/
def fetch (s : State) : Except FaultReason Word :=
  match addrFault s.cfg.imemWords s.pc 4 with
  | some .misaligned => .error (.fetchMisaligned s.pc)
  | some .outOfRange => .error (.fetchOutOfRange s.pc)
  | none => .ok (s.imem.readLE s.pc.toNat .word)

/-! ## The DataMemory (R62 to R67) -/

/-- The fault a data access raises, if any (R62, R63, R64). -/
def dataFault (s : State) (ea : Word) (size : AccessSize) : Option FaultReason :=
  match addrFault s.cfg.dmemWords ea size.bytes with
  | some .misaligned => some (.dataMisaligned ea)
  | some .outOfRange => some (.dataOutOfRange ea)
  | none => none

/-- `MemRead(addr, n)` (R66), right-justified in a Word. -/
def memRead (s : State) (ea : Word) (size : AccessSize) : Except FaultReason Word :=
  match dataFault s ea size with
  | some reason => .error reason
  | none => .ok (s.dmem.readLE ea.toNat size)

/-- `MemWrite(addr, n, v)` (R67): the new DataMemory. -/
def memWrite (s : State) (ea : Word) (size : AccessSize) (v : Word) : Except FaultReason Memory :=
  match dataFault s ea size with
  | some reason => .error reason
  | none => .ok (s.dmem.writeLE ea.toNat v size.bytes)

/-- Load extension (R310): `uns` is loadUnsigned. A word is not extended. -/
def extendLoad (size : AccessSize) (uns : Bool) (m : Word) : Word :=
  if uns then zext32 m (8 * size.bytes) else sext32 m (8 * size.bytes)

/-- The effective address of a load (R316). -/
def loadAddress (s : State) (rs1 : RegIdx) (imm : BitVec 12) : Word := s.getReg rs1 + immI imm

/-- The effective address of a store (R320). -/
def storeAddress (s : State) (rs1 : RegIdx) (imm : BitVec 12) : Word := s.getReg rs1 + immS imm

/-! ## How a cycle commits (R213 to R216) -/

/-- wbSel = ALU, pcSel = SEQ: write `v` to `rd` and go on to the next instruction. -/
def commitReg (rd : RegIdx) (v : Word) (s : State) : Result :=
  .next ((s.setReg rd v).setPc s.pcPlus4)

/-- wbSel = PC4, pcSel = TARGET: link and jump, or fault on a misaligned target (R290, R291). -/
def commitJump (rd : RegIdx) (target : Word) (s : State) : Result :=
  if aligned4 target then .next ((s.setReg rd s.pcPlus4).setPc target)
  else raiseFault (.targetMisaligned target) s

/-- A branch (R294): go to `pc +32 imm_SB` when taken, faulting on a misaligned target, and on to the
next instruction when not, whatever the target (R291). -/
def commitBranch (taken : Bool) (off : BitVec 13) (s : State) : Result :=
  let target := s.pc + immSB off
  if taken then
    if aligned4 target then .next (s.setPc target) else raiseFault (.targetMisaligned target) s
  else .next (s.setPc s.pcPlus4)

/-- wbSel = MEM (R310, R316): read, extend and write `rd`, or fault and write nothing. -/
def commitLoad (rd : RegIdx) (ea : Word) (size : AccessSize) (uns : Bool) (s : State) : Result :=
  match memRead s ea size with
  | .error reason => raiseFault reason s
  | .ok m => commitReg rd (extendLoad size uns m) s

/-- memRW = WRITE (R320): store the low bytes of `v`, or fault and store nothing. -/
def commitStore (ea : Word) (size : AccessSize) (v : Word) (s : State) : Result :=
  match memWrite s ea size v with
  | .error reason => raiseFault reason s
  | .ok mem => .next ({ s with dmem := mem }.setPc s.pcPlus4)

end Sys2Proof.Machine
end

