-- ==== Sys2Proof/Machine/ControlTransfer.lean ====
section
/-! DEFINITION. The two jumps and six branches (spec/44_control_transfer.md). Every target is an ALU sum; a
target that is not a multiple of 4 faults at the transfer (R291). -/

namespace Sys2Proof.Machine

/-- JAL (R292): jump and link. -/
def execJal (rd : RegIdx) (off : BitVec 21) (s : State) : Result :=
  commitJump rd (alu s.pc (immUJ off) .add) s

/-- JALR (R293): jump and link register. Bit 0 of the target is not cleared (R291). -/
def execJalr (rd rs1 : RegIdx) (imm : BitVec 12) (s : State) : Result :=
  commitJump rd (alu (s.getReg rs1) (immI imm) .add) s

/-- Whether a branch of kind `k` is taken on the two registers (R132, R205, R294). -/
def branchOn (k : BranchKind) (uns : Bool) (rs1 rs2 : RegIdx) (s : State) : Bool :=
  branchTaken k (branchComparator (s.getReg rs1) (s.getReg rs2) uns)

/-- BEQ (R295): branch if equal. -/
def execBeq (rs1 rs2 : RegIdx) (off : BitVec 13) (s : State) : Result :=
  commitBranch (branchOn .beq false rs1 rs2 s) off s

/-- BNE (R296): branch if not equal. -/
def execBne (rs1 rs2 : RegIdx) (off : BitVec 13) (s : State) : Result :=
  commitBranch (branchOn .bne false rs1 rs2 s) off s

/-- BLT (R297): branch if less than, signed. -/
def execBlt (rs1 rs2 : RegIdx) (off : BitVec 13) (s : State) : Result :=
  commitBranch (branchOn .blt false rs1 rs2 s) off s

/-- BGE (R298): branch if greater than or equal, signed. -/
def execBge (rs1 rs2 : RegIdx) (off : BitVec 13) (s : State) : Result :=
  commitBranch (branchOn .bge false rs1 rs2 s) off s

/-- BLTU (R299): branch if less than, unsigned. -/
def execBltu (rs1 rs2 : RegIdx) (off : BitVec 13) (s : State) : Result :=
  commitBranch (branchOn .blt true rs1 rs2 s) off s

/-- BGEU (R300): branch if greater than or equal, unsigned. -/
def execBgeu (rs1 rs2 : RegIdx) (off : BitVec 13) (s : State) : Result :=
  commitBranch (branchOn .bge true rs1 rs2 s) off s


end Sys2Proof.Machine
end

