-- ==== Sys2Proof/Machine/IntegerImmediate.lean ====
section
/-! DEFINITION. The nine register-immediate instructions (spec/42_integer_immediate.md): aSel = RS1,
bSel = IMM, wbSel = ALU, pcSel = SEQ. They raise no fault of their own (R270). -/

namespace Sys2Proof.Machine

/-- ADDI (R260): add immediate. -/
def execAddi (rd rs1 : RegIdx) (imm : BitVec 12) (s : State) : Result :=
  commitReg rd (alu (s.getReg rs1) (immI imm) .add) s

/-- SLTI (R261): set if less than immediate, signed. -/
def execSlti (rd rs1 : RegIdx) (imm : BitVec 12) (s : State) : Result :=
  commitReg rd (alu (s.getReg rs1) (immI imm) .slt) s

/-- SLTIU (R262): set if less than immediate, unsigned. -/
def execSltiu (rd rs1 : RegIdx) (imm : BitVec 12) (s : State) : Result :=
  commitReg rd (alu (s.getReg rs1) (immI imm) .sltu) s

/-- XORI (R263): exclusive or immediate. -/
def execXori (rd rs1 : RegIdx) (imm : BitVec 12) (s : State) : Result :=
  commitReg rd (alu (s.getReg rs1) (immI imm) .xor) s

/-- ORI (R264): or immediate. -/
def execOri (rd rs1 : RegIdx) (imm : BitVec 12) (s : State) : Result :=
  commitReg rd (alu (s.getReg rs1) (immI imm) .or) s

/-- ANDI (R265): and immediate. -/
def execAndi (rd rs1 : RegIdx) (imm : BitVec 12) (s : State) : Result :=
  commitReg rd (alu (s.getReg rs1) (immI imm) .and) s

/-- SLLI (R266): shift left logical immediate. -/
def execSlli (rd rs1 : RegIdx) (shamt : BitVec 5) (s : State) : Result :=
  commitReg rd (alu (s.getReg rs1) (immShamt shamt) .sll) s

/-- SRLI (R267): shift right logical immediate. -/
def execSrli (rd rs1 : RegIdx) (shamt : BitVec 5) (s : State) : Result :=
  commitReg rd (alu (s.getReg rs1) (immShamt shamt) .srl) s

/-- SRAI (R268): shift right arithmetic immediate. -/
def execSrai (rd rs1 : RegIdx) (shamt : BitVec 5) (s : State) : Result :=
  commitReg rd (alu (s.getReg rs1) (immShamt shamt) .sra) s


end Sys2Proof.Machine
end

