-- ==== Sys2Proof/Machine/IntegerRegister.lean ====
section
/-! DEFINITION. The ten register-register instructions (spec/41_integer_register.md): aSel = RS1, bSel = RS2,
wbSel = ALU, pcSel = SEQ. They raise no fault of their own (R250). -/

namespace Sys2Proof.Machine

/-- ADD (R240): add. -/
def execAdd (rd rs1 rs2 : RegIdx) (s : State) : Result :=
  commitReg rd (alu (s.getReg rs1) (s.getReg rs2) .add) s

/-- SUB (R241): subtract. -/
def execSub (rd rs1 rs2 : RegIdx) (s : State) : Result :=
  commitReg rd (alu (s.getReg rs1) (s.getReg rs2) .sub) s

/-- SLL (R242): shift left logical. -/
def execSll (rd rs1 rs2 : RegIdx) (s : State) : Result :=
  commitReg rd (alu (s.getReg rs1) (s.getReg rs2) .sll) s

/-- SLT (R243): set if less than, signed. -/
def execSlt (rd rs1 rs2 : RegIdx) (s : State) : Result :=
  commitReg rd (alu (s.getReg rs1) (s.getReg rs2) .slt) s

/-- SLTU (R244): set if less than, unsigned. -/
def execSltu (rd rs1 rs2 : RegIdx) (s : State) : Result :=
  commitReg rd (alu (s.getReg rs1) (s.getReg rs2) .sltu) s

/-- XOR (R245): bitwise exclusive or. -/
def execXor (rd rs1 rs2 : RegIdx) (s : State) : Result :=
  commitReg rd (alu (s.getReg rs1) (s.getReg rs2) .xor) s

/-- SRL (R246): shift right logical. -/
def execSrl (rd rs1 rs2 : RegIdx) (s : State) : Result :=
  commitReg rd (alu (s.getReg rs1) (s.getReg rs2) .srl) s

/-- SRA (R247): shift right arithmetic. -/
def execSra (rd rs1 rs2 : RegIdx) (s : State) : Result :=
  commitReg rd (alu (s.getReg rs1) (s.getReg rs2) .sra) s

/-- OR (R248): bitwise or. -/
def execOr (rd rs1 rs2 : RegIdx) (s : State) : Result :=
  commitReg rd (alu (s.getReg rs1) (s.getReg rs2) .or) s

/-- AND (R249): bitwise and. -/
def execAnd (rd rs1 rs2 : RegIdx) (s : State) : Result :=
  commitReg rd (alu (s.getReg rs1) (s.getReg rs2) .and) s


end Sys2Proof.Machine
end

