-- ==== Sys2Proof/Machine/LoadsStores.lean ====
section
/-! DEFINITION. The five loads and three stores (spec/45_loads_stores.md). -/

namespace Sys2Proof.Machine

/-- LB (R311): load byte, signed. -/
def execLb (rd rs1 : RegIdx) (imm : BitVec 12) (s : State) : Result :=
  commitLoad rd (loadAddress s rs1 imm) .byte false s

/-- LH (R312): load half-word, signed. -/
def execLh (rd rs1 : RegIdx) (imm : BitVec 12) (s : State) : Result :=
  commitLoad rd (loadAddress s rs1 imm) .half false s

/-- LW (R313): load word. -/
def execLw (rd rs1 : RegIdx) (imm : BitVec 12) (s : State) : Result :=
  commitLoad rd (loadAddress s rs1 imm) .word false s

/-- LBU (R314): load byte, unsigned. -/
def execLbu (rd rs1 : RegIdx) (imm : BitVec 12) (s : State) : Result :=
  commitLoad rd (loadAddress s rs1 imm) .byte true s

/-- LHU (R315): load half-word, unsigned. -/
def execLhu (rd rs1 : RegIdx) (imm : BitVec 12) (s : State) : Result :=
  commitLoad rd (loadAddress s rs1 imm) .half true s

/-- SB (R317): store byte. -/
def execSb (rs2 rs1 : RegIdx) (imm : BitVec 12) (s : State) : Result :=
  commitStore (storeAddress s rs1 imm) .byte (s.getReg rs2) s

/-- SH (R318): store half-word. -/
def execSh (rs2 rs1 : RegIdx) (imm : BitVec 12) (s : State) : Result :=
  commitStore (storeAddress s rs1 imm) .half (s.getReg rs2) s

/-- SW (R319): store word. -/
def execSw (rs2 rs1 : RegIdx) (imm : BitVec 12) (s : State) : Result :=
  commitStore (storeAddress s rs1 imm) .word (s.getReg rs2) s


end Sys2Proof.Machine
end

