-- ==== Sys2Proof/Machine/UpperImmediate.lean ====
section
/-! DEFINITION. The two U-format instructions (spec/43_upper_immediate.md): bSel = IMM, aluOp = ADD,
wbSel = ALU, pcSel = SEQ. They raise no fault of their own (R282). -/

namespace Sys2Proof.Machine

/-- LUI's operand A (R211, R280): 0, or the register at `instr[19:15]`, by LUI_A_OPERAND (C2, D8). -/
def luiOperandA (imm : BitVec 20) (s : State) : Word :=
  match s.cfg.luiAOperand with
  | .zero => 0
  | .rs1 => s.getReg (luiRs1 imm)

/-- LUI (R280): load upper immediate. -/
def execLui (rd : RegIdx) (imm : BitVec 20) (s : State) : Result :=
  commitReg rd (alu (luiOperandA imm s) (immU imm) .add) s

/-- AUIPC (R281): add upper immediate to the address of the AUIPC itself. -/
def execAuipc (rd : RegIdx) (imm : BitVec 20) (s : State) : Result :=
  commitReg rd (alu s.pc (immU imm) .add) s


end Sys2Proof.Machine
end

