-- ==== Sys2Proof/Machine/Step.lean ====
section
/-! DEFINITION. One step of the machine (spec/40_datapath.md R210, R217): fetch at the PC, decode,
execute. What this file calls, other files define. -/

namespace Sys2Proof.Machine

/-- One cycle from a Running state: a fetch fault, a decode fault, or the decoded instruction's own
meaning (R404's order). -/
def runCycle (s : State) : Host.Outcome State Fault Refusal :=
  match fetch s with
  | .error reason => raiseFault reason s
  | .ok w =>
    match decode w with
    | .illegalOpcode => raiseFault (.illegalOpcode w) s
    | .unmappedFunct => raiseFault (.unmappedFunct w) s
    | .ok i => exec i s

/-- One step. A Running state has exactly one successor; a Faulted state has none (R217, R402). -/
def step (s : State) : Host.Outcome State Fault Refusal :=
  match s.status with
  | .faulted reason => .fault (.runEnded reason)
  | .running => runCycle s

/-- The state with an instruction word stored in the InstructionMemory where `step` fetches next: the
four bytes at `pc`, little-endian (R61, R70). `w` is numbered as spec/opcode_table.json numbers it;
bits from `nbits` up are 0. It stands for the host's load of a program (R452 step 2; log entry 2). -/
def State.withFetchWord (s : State) (nbits w : Nat) : State :=
  { s with imem := s.imem.writeLE s.pc.toNat (BitVec.ofNat 32 (w % 2 ^ nbits)) 4 }

end Sys2Proof.Machine
end

