-- ==== Sys2Proof/Machine/Assembler.lean ====
section
/-! DEFINITION. The assembly syntax and encodings of the source's assembler (spec/30_encoding.md R150 to
R156). The assembler is offline software and no part of a step (R5, R159); the spec keeps its syntax, so
the model does. Text is a list of characters. What the spec leaves open of the text's form is log entry
12. -/

namespace Sys2Proof.Machine

/-- Why a line is refused (R159; R154 and D22 for the last two). -/
inductive AsmFault
  | unknownMnemonic
  | unknownRegister
  | malformedLiteral
  /-- The operands do not have the form R153 gives the mnemonic, or text that does not begin with `#`
  follows them (R152). -/
  | badOperands
  | literalOutOfRange
  | oddOffset
  deriving DecidableEq, Repr

/-! ## Registers (R150) and literals (R151) -/

/-- The ABI names (R150). `fp` is not among them (D22). -/
def abiNames : List (String × RegIdx) :=
  [("zero", 0), ("ra", 1), ("sp", 2), ("gp", 3), ("tp", 4), ("t0", 5), ("t1", 6), ("t2", 7),
    ("s0", 8), ("s1", 9), ("a0", 10), ("a1", 11), ("a2", 12), ("a3", 13), ("a4", 14), ("a5", 15),
    ("a6", 16), ("a7", 17), ("s2", 18), ("s3", 19), ("s4", 20), ("s5", 21), ("s6", 22), ("s7", 23),
    ("s8", 24), ("s9", 25), ("s10", 26), ("s11", 27), ("t3", 28), ("t4", 29), ("t5", 30), ("t6", 31)]

/-- The entry of a table under a name. -/
def lookupName {α : Type} (cs : List Char) : List (String × α) → Option α
  | [] => none
  | (name, v) :: rest => if cs = name.toList then some v else lookupName cs rest

/-- The value of a digit character, in a base of at most 16. -/
def digitValue (base : Nat) (c : Char) : Option Nat :=
  let v :=
    if '0' ≤ c ∧ c ≤ '9' then c.toNat - '0'.toNat
    else if 'a' ≤ c ∧ c ≤ 'f' then c.toNat - 'a'.toNat + 10
    else if 'A' ≤ c ∧ c ≤ 'F' then c.toNat - 'A'.toNat + 10
    else 16
  if v < base then some v else none

/-- The value of a row of digits, read on from `acc`. -/
def digitsValue (base : Nat) : List Char → Nat → Option Nat
  | [], acc => some acc
  | c :: cs, acc =>
    match digitValue base c with
    | some d => digitsValue base cs (acc * base + d)
    | none => none

/-- An unsigned number: at least one digit. -/
def parseNat (base : Nat) (cs : List Char) : Option Nat :=
  if cs.isEmpty then none else digitsValue base cs 0

/-- A numeric literal: decimal with an optional minus sign, `0x` hex or `0b` binary (R151). -/
def parseLiteral (cs : List Char) : Option Int :=
  match cs with
  | '0' :: 'x' :: ds => (parseNat 16 ds).map Int.ofNat
  | '0' :: 'b' :: ds => (parseNat 2 ds).map Int.ofNat
  | '-' :: ds => (parseNat 10 ds).map fun n => -(Int.ofNat n)
  | ds => (parseNat 10 ds).map Int.ofNat

/-- A register name: `x0` to `x31`, or an ABI name (R150). -/
def parseReg (cs : List Char) : Option RegIdx :=
  match cs with
  | ['x', d] => (digitValue 10 d).map fun n => Fin.ofNat 32 n
  | ['x', d, e] =>
    match parseNat 10 [d, e] with
    | some n => if 10 ≤ n ∧ n < 32 then some (Fin.ofNat 32 n) else none
    | none => none
  | _ => lookupName cs abiNames

/-- A register operand. -/
def regOperand (cs : List Char) : Except AsmFault RegIdx :=
  match parseReg cs with
  | some r => .ok r
  | none => .error .unknownRegister

/-- A literal operand. -/
def litOperand (cs : List Char) : Except AsmFault Int :=
  match parseLiteral cs with
  | some v => .ok v
  | none => .error .malformedLiteral

/-- A literal in a field of width `w`: `v mod 2^w`, for `v` in `[-2^(w-1), 2^w - 1]` (R154). -/
def immField (w : Nat) (cs : List Char) : Except AsmFault (BitVec w) := do
  let v ← litOperand cs
  if -(2 ^ (w - 1) : Int) ≤ v ∧ v ≤ (2 ^ w : Int) - 1 then .ok (BitVec.ofInt w v)
  else .error .literalOutOfRange

/-- A branch or jump offset: an even byte offset (R154). That a literal both odd and out of range gives
literalOutOfRange is the model's choice (DESIGN CHOICE, log entry 12). -/
def offsetField (w : Nat) (cs : List Char) : Except AsmFault (BitVec w) := do
  let off ← immField w cs
  if evenOffset off then .ok off else .error .oddOffset

/-- A shift amount, 0 to 31 (R154). -/
def shamtField (cs : List Char) : Except AsmFault (BitVec 5) := do
  let v ← litOperand cs
  if 0 ≤ v ∧ v ≤ 31 then .ok (BitVec.ofInt 5 v) else .error .literalOutOfRange

/-! ## Pseudo-instructions (R155) -/

/-- A pseudo-instruction (format Pseudo): it expands to exactly one real instruction. -/
inductive Pseudo
  | nop
  | li (rd : RegIdx) (imm : BitVec 12)
  | mv (rd rs : RegIdx)
  | not (rd rs : RegIdx)
  | neg (rd rs : RegIdx)
  | beqz (rs : RegIdx) (off : BitVec 13)
  | bnez (rs : RegIdx) (off : BitVec 13)
  | j (off : BitVec 21)
  | jr (rs : RegIdx)
  | ret
  deriving DecidableEq, Repr

/-- R155's expansions. -/
def Pseudo.expand : Pseudo → Instr
  | .nop => .addi 0 0 0
  | .li rd imm => .addi rd 0 imm
  | .mv rd rs => .addi rd rs 0
  | .not rd rs => .xori rd rs (-1)
  | .neg rd rs => .sub rd 0 rs
  | .beqz rs off => .beq rs 0 off
  | .bnez rs off => .bne rs 0 off
  | .j off => .jal 0 off
  | .jr rs => .jalr 0 rs 0
  | .ret => .jalr 0 1 0

/-! ## Lines (R152) and operands (R153) -/

/-- A token of a line. -/
inductive Token
  | word (cs : List Char)
  | comma
  | lparen
  | rparen
  deriving DecidableEq, Repr

/-- The word read so far (reversed), in front of the tokens after it. -/
def flushWord (cur : List Char) (ts : List Token) : List Token :=
  if cur.isEmpty then ts else .word cur.reverse :: ts

/-- The tokens of a line, up to its end or a `#` (R152, which names a `#` at the beginning of a line and
after the operands). That blanks may stand before a comment line's `#`, and that a `#` anywhere, even
inside a token, ends the line, is the model's choice (DESIGN CHOICE, log entry 12). -/
def tokenize : List Char → List Char → List Token
  | [], cur => flushWord cur []
  | c :: rest, cur =>
    if c = '#' then flushWord cur []
    else if c = ' ' ∨ c = '\t' ∨ c = '\r' then flushWord cur (tokenize rest [])
    else if c = ',' then flushWord cur (.comma :: tokenize rest [])
    else if c = '(' then flushWord cur (.lparen :: tokenize rest [])
    else if c = ')' then flushWord cur (.rparen :: tokenize rest [])
    else tokenize rest (c :: cur)

/-- The operand shapes of R153: up to three, separated by commas, or `a, off(base)`. -/
inductive OperandList
  | zero
  | one (a : List Char)
  | two (a b : List Char)
  | three (a b c : List Char)
  | based (a off base : List Char)
  deriving DecidableEq, Repr

/-- The operands of a line, if the tokens after the mnemonic have one of R153's shapes. -/
def operandList (ts : List Token) : Option OperandList :=
  match ts with
  | [] => some .zero
  | [.word a] => some (.one a)
  | [.word a, .comma, .word b] => some (.two a b)
  | [.word a, .comma, .word b, .comma, .word c] => some (.three a b c)
  | [.word a, .comma, .word off, .lparen, .word base, .rparen] => some (.based a off base)
  | _ => none

/-- The classes of R153 and R155, with the instruction that each builds. -/
inductive AsmClass
  | regs (mk : RegIdx → RegIdx → RegIdx → Instr)
  | imm (mk : RegIdx → RegIdx → BitVec 12 → Instr)
  | shift (mk : RegIdx → RegIdx → BitVec 5 → Instr)
  | memory (mk : RegIdx → RegIdx → BitVec 12 → Instr)
  | branch (mk : RegIdx → RegIdx → BitVec 13 → Instr)
  | upper (mk : RegIdx → BitVec 20 → Instr)
  | jump (mk : RegIdx → BitVec 21 → Instr)
  | nop | li | mv | notOp | neg | beqz | bnez | j | jr | ret

/-- The 37 mnemonics of the real instructions (R156). -/
def realMnemonics : List (String × AsmClass) :=
  [("add", .regs .add), ("sub", .regs .sub), ("sll", .regs .sll), ("slt", .regs .slt),
    ("sltu", .regs .sltu), ("xor", .regs .xor), ("srl", .regs .srl), ("sra", .regs .sra),
    ("or", .regs .or), ("and", .regs .and), ("addi", .imm .addi), ("slti", .imm .slti),
    ("sltiu", .imm .sltiu), ("xori", .imm .xori), ("ori", .imm .ori), ("andi", .imm .andi),
    ("slli", .shift .slli), ("srli", .shift .srli), ("srai", .shift .srai), ("lui", .upper .lui),
    ("auipc", .upper .auipc), ("jal", .jump .jal), ("jalr", .imm .jalr), ("beq", .branch .beq),
    ("bne", .branch .bne), ("blt", .branch .blt), ("bge", .branch .bge), ("bltu", .branch .bltu),
    ("bgeu", .branch .bgeu), ("lb", .memory .lb), ("lh", .memory .lh), ("lw", .memory .lw),
    ("lbu", .memory .lbu), ("lhu", .memory .lhu), ("sb", .memory .sb), ("sh", .memory .sh),
    ("sw", .memory .sw)]

/-- The 10 mnemonics of the pseudo-instructions (R155, R156). -/
def pseudoMnemonics : List (String × AsmClass) :=
  [("nop", .nop), ("li", .li), ("mv", .mv), ("not", .notOp), ("neg", .neg), ("beqz", .beqz),
    ("bnez", .bnez), ("j", .j), ("jr", .jr), ("ret", .ret)]

/-- The fixed mnemonic table (R156). -/
def mnemonicTable : List (String × AsmClass) := realMnemonics ++ pseudoMnemonics

/-- The instruction of a class and its operands (R153, R154). A load or store takes `a, off(base)` or
the equivalent `a, base, off`. The spec does not say which of several faults of a line is reported; both
forms check the base before the offset (DESIGN CHOICE, log entry 12). -/
def assembleOperands (c : AsmClass) (ops : OperandList) : Except AsmFault Instr :=
  match c, ops with
  | .regs mk, .three a b d => do return mk (← regOperand a) (← regOperand b) (← regOperand d)
  | .imm mk, .three a b d => do return mk (← regOperand a) (← regOperand b) (← immField 12 d)
  | .shift mk, .three a b d => do return mk (← regOperand a) (← regOperand b) (← shamtField d)
  | .memory mk, .three a b d => do return mk (← regOperand a) (← regOperand b) (← immField 12 d)
  | .memory mk, .based a d b => do return mk (← regOperand a) (← regOperand b) (← immField 12 d)
  | .branch mk, .three a b d => do return mk (← regOperand a) (← regOperand b) (← offsetField 13 d)
  | .upper mk, .two a d => do return mk (← regOperand a) (← immField 20 d)
  | .jump mk, .two a d => do return mk (← regOperand a) (← offsetField 21 d)
  | .nop, .zero => .ok Pseudo.nop.expand
  | .li, .two a d => do return (Pseudo.li (← regOperand a) (← immField 12 d)).expand
  | .mv, .two a b => do return (Pseudo.mv (← regOperand a) (← regOperand b)).expand
  | .notOp, .two a b => do return (Pseudo.not (← regOperand a) (← regOperand b)).expand
  | .neg, .two a b => do return (Pseudo.neg (← regOperand a) (← regOperand b)).expand
  | .beqz, .two a d => do return (Pseudo.beqz (← regOperand a) (← offsetField 13 d)).expand
  | .bnez, .two a d => do return (Pseudo.bnez (← regOperand a) (← offsetField 13 d)).expand
  | .j, .one d => do return (Pseudo.j (← offsetField 21 d)).expand
  | .jr, .one a => do return (Pseudo.jr (← regOperand a)).expand
  | .ret, .zero => .ok Pseudo.ret.expand
  | _, _ => .error .badOperands

/-- A line: nothing for a blank or comment line, else one instruction, or a fault (R152). That a line
which begins with a comma or a parenthesis, and so has no mnemonic, gives badOperands is the model's
choice (DESIGN CHOICE, log entry 12). -/
def assembleLine (line : List Char) : Except AsmFault (Option Instr) :=
  match tokenize line [] with
  | [] => .ok none
  | .word m :: rest =>
    match lookupName m mnemonicTable with
    | none => .error .unknownMnemonic
    | some c =>
      match operandList rest with
      | none => .error .badOperands
      | some ops => do return some (← assembleOperands c ops)
  | _ :: _ => .error .badOperands

/-- A program's lines: the words assembled, up to the first fault, which leaves the words before it as
they are (R159). R159 calls a fault fatal for its instruction and does not say whether the lines after it
are assembled: that they are not is the model's choice (DESIGN CHOICE, log entry 12). -/
def assemble : List (List Char) → List Word × Option AsmFault
  | [] => ([], none)
  | line :: rest =>
    match assembleLine line with
    | .error f => ([], some f)
    | .ok none => assemble rest
    | .ok (some i) => (encode i :: (assemble rest).1, (assemble rest).2)

end Sys2Proof.Machine
end

