-- ==== Sys2Proof/Machine/Launch.lean ====
section
/-! DEFINITION. What the host does before the first step and between steps: construct, load, preload
(spec/70_reset_and_hazards.md R450 to R454) and read (spec/10_state.md R45). During a run it only
reads (D27). -/

namespace Sys2Proof.Machine

/-- What a launch supplies (R44, R452). `regs` gives x0..x31 their start values, 0 where the launch
supplies none; its slot 0 is ignored. `data` lists the preloaded DataMemory bytes in the order they
are written. -/
structure LaunchArgs where
  cfg : Config
  program : List Word
  regs : Vector Word 32
  data : List Host.Cell
  deriving DecidableEq, Repr

/-- Why a launch is refused. -/
inductive LaunchRefusal
  /-- A word count outside 1..2^30 (D6; log entry 8). -/
  | badWordCount
  /-- More program words than IMEM_WORDS (R452 step 2, D5). -/
  | programTooLong
  /-- A preloaded byte outside the DataMemory (log entry 8). -/
  | preloadOutOfRange
  deriving DecidableEq, Repr

/-- R452 step 2: word `i` of the list at byte address `a + 4i`, little-endian. -/
def loadProgram (m : Memory) (a : Nat) : List Word → Memory
  | [] => m
  | w :: rest => loadProgram (m.writeLE a w 4) (a + 4) rest

/-- R452 step 3: the preloaded bytes. -/
def preloadBytes (m : Memory) : List Host.Cell → Memory
  | [] => m
  | (a, b) :: rest => preloadBytes (m.write a b) rest

/-- The launch procedure (R452): the state at the start of a run (R44), or a refusal. -/
def launch (l : LaunchArgs) : Except LaunchRefusal State :=
  if ¬ l.cfg.ok then .error .badWordCount
  else if l.program.length > l.cfg.imemWords then .error .programTooLong
  else if l.data.any (fun c => decide (4 * l.cfg.dmemWords ≤ c.1)) then .error .preloadOutOfRange
  else .ok
    { regs := l.regs.set 0 0
      pc := l.cfg.resetPc
      imem := loadProgram [] 0 l.program
      dmem := preloadBytes [] l.data
      status := .running
      cfg := l.cfg }

/-- The host's read accessor of a register (R45): it answers a value and changes nothing. -/
def hostReg (s : State) (r : RegIdx) : Word := s.getReg r

/-- The host's read accessor of a DataMemory byte (R45); there is none beyond the capacity (R71; log
entry 9). -/
def hostByte (s : State) (a : Nat) : Option Byte :=
  if a < 4 * s.cfg.dmemWords then some (s.dmem.read a) else none

end Sys2Proof.Machine
end

