-- ==== Sys2Proof/Machine/MachineCode.lean ====
section
/-! DEFINITION. The machine-code text format (spec/30_encoding.md R158): reading a text into the program
words that a launch loads, writing a program as a text, and the two launches of
spec/70_reset_and_hazards.md R452 step 2, from such a text and by assemble-then-load. What the spec
leaves open of the format is log entry 17. -/

namespace Sys2Proof.Machine

/-! ## Reading -/

/-- Why the loader rejects a line. -/
inductive LoaderFault
  | malformed
  /-- The value is outside 0 .. 2^32 - 1 (D28). -/
  | outOfRange
  deriving DecidableEq, Repr

/-- A value as a 32-bit word, or rejected (R158, D28). -/
def loaderWord (v : Int) : Except LoaderFault Word :=
  if 0 ≤ v ∧ v < 2 ^ 32 then .ok (BitVec.ofInt 32 v) else .error .outOfRange

/-- One line of machine-code text: a decimal or hex integer (R158). That nothing may stand beside the
integer, neither blanks nor a carriage return nor a comment, and that a blank line is malformed, is the
model's choice (DESIGN CHOICE, log entry 17). -/
def loaderLine (cs : List Char) : Except LoaderFault Word :=
  match cs with
  | '0' :: 'b' :: _ => .error .malformed
  | _ =>
    match parseLiteral cs with
    | some v => loaderWord v
    | none => .error .malformed

/-- The words of a text's lines, one a line, or the first line's fault (R158). -/
def loaderWords : List (List Char) → Except LoaderFault (List Word)
  | [] => .ok []
  | line :: rest => do return (← loaderLine line) :: (← loaderWords rest)

/-- The lines of a text. A line feed ends a line; the last line may do without one (log entry 17). -/
def textLines : List Char → List (List Char)
  | [] => []
  | c :: rest =>
    if c = '\n' then [] :: textLines rest
    else
      match textLines rest with
      | [] => [[c]]
      | line :: lines => (c :: line) :: lines

/-- The program words of a machine-code text (R158). -/
def loadText (text : List Char) : Except LoaderFault (List Word) := loaderWords (textLines text)

/-! ## Writing -/

/-- A word as a hex integer. R158 allows decimal or hex; that the model writes `0x` and eight lower-case
digits is its own choice (DESIGN CHOICE, log entry 17). -/
def wordText (w : Word) : List Char :=
  '0' :: 'x' :: [7, 6, 5, 4, 3, 2, 1, 0].map fun k => Nat.digitChar (w.toNat / 16 ^ k % 16)

/-- A program as a machine-code text, one word a line (R158). -/
def programText : List Word → List Char
  | [] => []
  | w :: rest => wordText w ++ '\n' :: programText rest

/-- What the assembler produces of a source text for persistence (R158), and its fault, if any (R159). -/
def assembleText (source : List Char) : List Char × Option AsmFault :=
  (programText (assemble (textLines source)).1, (assemble (textLines source)).2)

/-! ## Loading -/

/-- Why a launch from a text is refused. -/
inductive TextRefusal
  | loader (f : LoaderFault)
  | assembler (f : AsmFault)
  | launch (r : LaunchRefusal)
  deriving DecidableEq, Repr

/-- The launch of a list of program words in the place of `l.program`. -/
def launchProgram (l : LaunchArgs) (program : List Word) : Except TextRefusal State :=
  match launch { l with program := program } with
  | .ok s => .ok s
  | .error r => .error (.launch r)

/-- A launch whose program comes from a machine-code text (R452 step 2, R158). That a fault of the text is
reported before any refusal of the launch itself, a bad word count among them, is the model's choice
(DESIGN CHOICE, log entry 17). -/
def launchText (l : LaunchArgs) (text : List Char) : Except TextRefusal State :=
  match loadText text with
  | .ok program => launchProgram l program
  | .error f => .error (.loader f)

/-- Assemble-then-load (R452 step 2): a launch whose program comes from the assembler. That a source with
a fault is not launched at all, and that its fault is reported before any refusal of the launch itself,
is the model's choice (DESIGN CHOICE, log entry 17). -/
def launchSource (l : LaunchArgs) (source : List Char) : Except TextRefusal State :=
  match assemble (textLines source) with
  | (program, none) => launchProgram l program
  | (_, some f) => .error (.assembler f)

end Sys2Proof.Machine
end

