-- ==== Sys2Proof/Machine/Control.lean ====
section
/-! DEFINITION. The ControlUnit (spec/30_encoding.md R120 to R135): a pure function of the instruction
word, written from R121 to R131 signal by signal and independently of the decoder of Decode.lean; and
R134's table of the bundle of every instruction. The signal values are symbolic (R133). -/

namespace Sys2Proof.Machine

/-- aSel (R130). -/
inductive ASel
  | pc | rs1 | zero
  deriving DecidableEq, Repr

/-- bSel (R130). -/
inductive BSel
  | rs2 | imm
  deriving DecidableEq, Repr

/-- pcSel (R130). -/
inductive PcSel
  | seq | target
  deriving DecidableEq, Repr

/-- wbSel (R130). -/
inductive WbSel
  | mem | alu | pc4
  deriving DecidableEq, Repr

/-- memRW (R130). -/
inductive MemRW
  | read | write
  deriving DecidableEq, Repr

/-- The ControlSignals bundle (R120). It is no state: it is recomputed in every cycle
(spec/10_state.md R40). A signal that R134 prints as "-", not consulted, is `none` (log entry 6). -/
structure ControlSignals where
  aSel : ASel
  bSel : BSel
  pcSel : PcSel
  wbSel : WbSel
  memRW : MemRW
  aluOp : AluOp
  immFormat : Format
  branchUnsigned : Bool
  regWriteEnable : Bool
  loadStoreSize : Option AccessSize
  loadUnsigned : Option Bool
  deriving DecidableEq, Repr

/-- The ControlUnit's output: the format and the bundle, or a decode fault (R120). -/
inductive ControlOut
  | ok (format : Format) (signals : ControlSignals)
  | illegalOpcode
  | unmappedFunct
  deriving DecidableEq, Repr

/-- R121, R122: the opcode decides the format. -/
def formatOf (op : BitVec 7) : Option Format :=
  if op = 0x33 then some .r
  else if op = 0x13 ∨ op = 0x03 ∨ op = 0x67 then some .i
  else if op = 0x23 then some .s
  else if op = 0x63 then some .sb
  else if op = 0x6F then some .uj
  else if op = 0x37 ∨ op = 0x17 then some .u
  else none

/-- The ALU operation of a funct3 with funct7 = 0x00 (R123's middle column, R124). -/
def aluOpOfFunct3 (f3 : BitVec 3) : AluOp :=
  match f3 with
  | 0b000#3 => .add
  | 0b001#3 => .sll
  | 0b010#3 => .slt
  | 0b011#3 => .sltu
  | 0b100#3 => .xor
  | 0b101#3 => .srl
  | 0b110#3 => .or
  | _ => .and

/-- aluOp (R123, R124, R125); `none` is an unmapped funct combination. -/
def aluOpOf (op : BitVec 7) (f3 : BitVec 3) (f7 : BitVec 7) : Option AluOp :=
  if op = 0x33 then
    if f7 = 0x00 then some (aluOpOfFunct3 f3)
    else if f7 = 0x20 ∧ f3 = 0b000 then some .sub
    else if f7 = 0x20 ∧ f3 = 0b101 then some .sra
    else none
  else if op = 0x13 then
    if f3 = 0b001 then (if f7 = 0x00 then some .sll else none)
    else if f3 = 0b101 then
      (if f7 = 0x00 then some .srl else if f7 = 0x20 then some .sra else none)
    else some (aluOpOfFunct3 f3)
  else some .add

/-- The comparison kind (R126). -/
def branchKindOf (f3 : BitVec 3) : Option BranchKind :=
  match f3 with
  | 0b000#3 => some .beq
  | 0b001#3 => some .bne
  | 0b100#3 => some .blt
  | 0b110#3 => some .blt
  | 0b101#3 => some .bge
  | 0b111#3 => some .bge
  | _ => none

/-- loadStoreSize (R127, R128, R131). -/
def sizeOf3 (f3 : BitVec 3) : Option AccessSize :=
  match f3 with
  | 0b000#3 => some .byte
  | 0b001#3 => some .half
  | 0b010#3 => some .word
  | 0b100#3 => some .byte
  | 0b101#3 => some .half
  | _ => none

/-- Whether the funct fields select an instruction of the opcode (R123 to R129). -/
def functMapped (op : BitVec 7) (f3 : BitVec 3) (f7 : BitVec 7) : Bool :=
  (aluOpOf op f3 f7).isSome
  && (op != 0x63 || (branchKindOf f3).isSome)
  && (op != 0x03 || (sizeOf3 f3).isSome)
  && (op != 0x23 || ((sizeOf3 f3).isSome && !f3.getLsbD 2))
  && (op != 0x67 || f3 == 0b000)

/-- The bundle of a word of a known format (R117, R130, R131). pcSel of the SB format is SEQ here, and
is set in the second phase of the cycle (R212; `branchTaken`). -/
def signalsFor (lui : LuiAOperand) (fmt : Format) (op : BitVec 7) (f3 : BitVec 3) (alu : AluOp) :
    ControlSignals where
  aSel :=
    if fmt = .uj ∨ fmt = .sb ∨ op = 0x17 then .pc
    else if op = 0x37 then (match lui with | .zero => .zero | .rs1 => .rs1)
    else .rs1
  bSel := if fmt = .r then .rs2 else .imm
  pcSel := if op = 0x67 ∨ fmt = .uj then .target else .seq
  wbSel := if op = 0x03 then .mem else if op = 0x67 ∨ fmt = .uj then .pc4 else .alu
  memRW := if fmt = .s then .write else .read
  aluOp := alu
  immFormat := fmt
  branchUnsigned := op == 0x63 && (f3 == 0b110 || f3 == 0b111)
  regWriteEnable := !(fmt == .s || fmt == .sb)
  loadStoreSize := if op = 0x03 ∨ op = 0x23 then sizeOf3 f3 else none
  loadUnsigned := if op = 0x03 then some (f3.getLsbD 2) else none

/-- The ControlUnit: the opcode is checked first, the funct fields second (R135). -/
def controlUnit (lui : LuiAOperand) (w : Word) : ControlOut :=
  match formatOf (opcodeOf w) with
  | none => .illegalOpcode
  | some fmt =>
    if functMapped (opcodeOf w) (funct3Of w) (funct7Of w) then
      match aluOpOf (opcodeOf w) (funct3Of w) (funct7Of w) with
      | none => .unmappedFunct
      | some alu => .ok fmt (signalsFor lui fmt (opcodeOf w) (funct3Of w) alu)
    else .unmappedFunct

/-- The second phase (R132, R212): pcSel of an SB word from the comparator's flags. -/
def resolvePcSel (fmt : Format) (f3 : BitVec 3) (c : Comparison) (sig : ControlSignals) :
    ControlSignals :=
  if fmt = .sb then
    match branchKindOf f3 with
    | some k => { sig with pcSel := if branchTaken k c then .target else .seq }
    | none => sig
  else sig

/-! ## R134's table -/

/-- A row of R134's table for a register-writing ALU instruction. -/
def aluRow (fmt : Format) (op : AluOp) (a : ASel) (b : BSel) : ControlSignals :=
  ⟨a, b, .seq, .alu, .read, op, fmt, false, true, none, none⟩

/-- A row of R134's table for a load. -/
def loadRow (size : AccessSize) (uns : Bool) : ControlSignals :=
  ⟨.rs1, .imm, .seq, .mem, .read, .add, .i, false, true, some size, some uns⟩

/-- A row of R134's table for a store. -/
def storeRow (size : AccessSize) : ControlSignals :=
  ⟨.rs1, .imm, .seq, .alu, .write, .add, .s, false, false, some size, none⟩

/-- A row of R134's table for a branch whose outcome is `taken`. -/
def branchRow (taken uns : Bool) : ControlSignals :=
  ⟨.pc, .imm, if taken then .target else .seq, .alu, .read, .add, .sb, uns, false, none, none⟩

/-- R134's table: the format and the bundle of every instruction, given LUI_A_OPERAND and, for a
branch, whether it is taken. -/
def bundleTable (lui : LuiAOperand) (taken : Bool) : Instr → Format × ControlSignals
  | .add _ _ _ => (.r, aluRow .r .add .rs1 .rs2)
  | .sub _ _ _ => (.r, aluRow .r .sub .rs1 .rs2)
  | .sll _ _ _ => (.r, aluRow .r .sll .rs1 .rs2)
  | .slt _ _ _ => (.r, aluRow .r .slt .rs1 .rs2)
  | .sltu _ _ _ => (.r, aluRow .r .sltu .rs1 .rs2)
  | .xor _ _ _ => (.r, aluRow .r .xor .rs1 .rs2)
  | .srl _ _ _ => (.r, aluRow .r .srl .rs1 .rs2)
  | .sra _ _ _ => (.r, aluRow .r .sra .rs1 .rs2)
  | .or _ _ _ => (.r, aluRow .r .or .rs1 .rs2)
  | .and _ _ _ => (.r, aluRow .r .and .rs1 .rs2)
  | .addi _ _ _ => (.i, aluRow .i .add .rs1 .imm)
  | .slti _ _ _ => (.i, aluRow .i .slt .rs1 .imm)
  | .sltiu _ _ _ => (.i, aluRow .i .sltu .rs1 .imm)
  | .xori _ _ _ => (.i, aluRow .i .xor .rs1 .imm)
  | .ori _ _ _ => (.i, aluRow .i .or .rs1 .imm)
  | .andi _ _ _ => (.i, aluRow .i .and .rs1 .imm)
  | .slli _ _ _ => (.i, aluRow .i .sll .rs1 .imm)
  | .srli _ _ _ => (.i, aluRow .i .srl .rs1 .imm)
  | .srai _ _ _ => (.i, aluRow .i .sra .rs1 .imm)
  | .lui _ _ => (.u, aluRow .u .add (match lui with | .zero => .zero | .rs1 => .rs1) .imm)
  | .auipc _ _ => (.u, aluRow .u .add .pc .imm)
  | .jal _ _ => (.uj, ⟨.pc, .imm, .target, .pc4, .read, .add, .uj, false, true, none, none⟩)
  | .jalr _ _ _ => (.i, ⟨.rs1, .imm, .target, .pc4, .read, .add, .i, false, true, none, none⟩)
  | .beq _ _ _ => (.sb, branchRow taken false)
  | .bne _ _ _ => (.sb, branchRow taken false)
  | .blt _ _ _ => (.sb, branchRow taken false)
  | .bge _ _ _ => (.sb, branchRow taken false)
  | .bltu _ _ _ => (.sb, branchRow taken true)
  | .bgeu _ _ _ => (.sb, branchRow taken true)
  | .lb _ _ _ => (.i, loadRow .byte false)
  | .lh _ _ _ => (.i, loadRow .half false)
  | .lw _ _ _ => (.i, loadRow .word false)
  | .lbu _ _ _ => (.i, loadRow .byte true)
  | .lhu _ _ _ => (.i, loadRow .half true)
  | .sb _ _ _ => (.s, storeRow .byte)
  | .sh _ _ _ => (.s, storeRow .half)
  | .sw _ _ _ => (.s, storeRow .word)

end Sys2Proof.Machine
end

