-- ==== Sys2Proof/Machine/Datapath.lean ====
section
/-! DEFINITION. The Datapath's cycle (spec/40_datapath.md R210 to R216), run on the instruction WORD by
its control signals, part by part as the source orders it. The meanings of Machine/Dispatch.lean are
written from each instruction's own rule instead; that the two agree on every Running state is an
obligation. Here too is the DataMemory as a component of its own, with its ports and its Denied result
(spec/20_memory.md R60, R68), through which every data access of the cycle goes. -/

namespace Sys2Proof.Machine

/-! ## The DataMemory's interface -/

/-- R60's result. A read's value is right-justified in a Word; a write answers the new memory. -/
inductive MemResult
  | ok (value : Option Word) (dmem : Memory)
  | denied
  | fault (reason : FaultReason)
  deriving DecidableEq, Repr

/-- R60's input ports. -/
structure MemPort where
  addr : Word
  size : AccessSize
  readEnable : Bool
  writeEnable : Bool
  wdata : Word
  deriving DecidableEq, Repr

/-- An attempted read or write of the DataMemory (R60). Attempted with its enable off it is Denied,
which changes nothing and is no fault (R68), whatever its address (log entry 7). R68 speaks of an access
that is attempted, and R60's ports do not say which one is: that `attempt` says it, and that the other
enable is not looked at, is the model's choice (DESIGN CHOICE, log entry 18). -/
def dataMemory (s : State) (attempt : MemRW) (p : MemPort) : MemResult :=
  match attempt with
  | .read =>
    if p.readEnable then
      match memRead s p.addr p.size with
      | .ok v => .ok (some v) s.dmem
      | .error reason => .fault reason
    else .denied
  | .write =>
    if p.writeEnable then
      match memWrite s p.addr p.size p.wdata with
      | .ok mem => .ok none mem
      | .error reason => .fault reason
    else .denied

/-! ## The multiplexers -/

/-- Operand A (R211). -/
def selectA (sel : ASel) (pc v1 : Word) : Word :=
  match sel with
  | .pc => pc
  | .rs1 => v1
  | .zero => 0

/-- Operand B (R211). -/
def selectB (sel : BSel) (imm v2 : Word) : Word :=
  match sel with
  | .imm => imm
  | .rs2 => v2

/-- The writeback value (R213). -/
def selectWb (sel : WbSel) (loaded r pc : Word) : Word :=
  match sel with
  | .mem => loaded
  | .alu => r
  | .pc4 => pc + 4

/-- The next-PC multiplexer (R35, R215). -/
def nextPc (sel : PcSel) (pc r : Word) : Word :=
  match sel with
  | .seq => pc + 4
  | .target => r

/-! ## The cycle -/

/-- What the Datapath drives the DataMemory's ports with (R60): readEnable for loads only, writeEnable
from memRW = WRITE. With neither enable no access is issued (R65). -/
def dataPort (op : BitVec 7) (sig : ControlSignals) (r v2 : Word) : Option MemPort :=
  let readEnable := op == 0x03
  let writeEnable := sig.memRW == .write
  match sig.loadStoreSize with
  | some size =>
    if readEnable || writeEnable then
      some { addr := r, size := size, readEnable := readEnable, writeEnable := writeEnable, wdata := v2 }
    else none
  | none => none

/-- The loaded value of a cycle: what the DataMemory answered, extended (R310). -/
def loadedValue (size : AccessSize) (sig : ControlSignals) (value : Option Word) : Word :=
  match value, sig.loadUnsigned with
  | some m, some uns => extendLoad size uns m
  | _, _ => 0

/-- The data access of a cycle, if it issues one: an access of the DataMemory in memRW's direction (R60,
R65; log entry 18). The answer is the loaded value and the DataMemory the cycle would commit. A Denied
access changes nothing and is no fault (R68); the cycle makes none. -/
def dataStage (s : State) (op : BitVec 7) (sig : ControlSignals) (r v2 : Word) :
    Except FaultReason (Word × Memory) :=
  match dataPort op sig r v2 with
  | none => .ok (0, s.dmem)
  | some p =>
    match dataMemory s sig.memRW p with
    | .ok value mem => .ok (loadedValue p.size sig value, mem)
    | .denied => .ok (0, s.dmem)
    | .fault reason => .error reason

/-- R210 from operand selection to the commit, for a decoded word. -/
def executeWord (s : State) (w : Word) (fmt : Format) (sig0 : ControlSignals) : State :=
  let v1 := s.getReg (rs1Of w)
  let v2 := s.getReg (rs2Of w)
  let imm := immGen (w.extractLsb' 7 25) sig0.immFormat
  let flags := branchComparator v1 v2 sig0.branchUnsigned
  let sig := resolvePcSel fmt (funct3Of w) flags sig0
  let r := alu (selectA sig.aSel s.pc v1) (selectB sig.bSel imm v2) sig.aluOp
  match dataStage s (opcodeOf w) sig r v2 with
  | .error reason => s.raise reason
  | .ok (loaded, mem) =>
    let next := nextPc sig.pcSel s.pc r
    if sig.pcSel = .target ∧ ¬ aligned4 next then s.raise (.targetMisaligned next)
    else
      let written :=
        if sig.regWriteEnable then s.setReg (rdOf w) (selectWb sig.wbSel loaded r s.pc) else s
      { written with dmem := mem }.setPc next

/-- One cycle from a state with status Running (R210): its one successor (R217). -/
def cycle (s : State) : State :=
  match fetch s with
  | .error reason => s.raise reason
  | .ok w =>
    match controlUnit s.cfg.luiAOperand w with
    | .illegalOpcode => s.raise (.illegalOpcode w)
    | .unmappedFunct => s.raise (.unmappedFunct w)
    | .ok fmt sig => executeWord s w fmt sig

end Sys2Proof.Machine
end

