-- ==== Sys2Proof/Machine/Run.lean ====
section
/-! DEFINITION. The driver's run loop and the end of a run (spec/40_datapath.md R218,
spec/70_reset_and_hazards.md R455). -/

namespace Sys2Proof.Machine

/-- How a run ended, with the final state and `steps`, the number of instructions that completed. -/
inductive RunEnd
  /-- An error end: the status is Faulted(reason). -/
  | error (reason : FaultReason) (final : State) (steps : Nat)
  /-- A bound end: MAX_STEPS instructions ran and the status is Running. It does not say that a
  program finished: this hardware has no halt instruction (R333, R455). -/
  | bound (final : State) (steps : Nat)
  /-- A step was refused; no step of this model is. -/
  | refused (why : Refusal)
  deriving DecidableEq, Repr

/-- Step at most `fuel` more times, `steps` instructions having completed. An instruction that faults
does not complete, so it is not counted (log entry 10). -/
def runFrom : Nat → State → Nat → RunEnd
  | 0, s, steps =>
    match s.status with
    | .running => .bound s steps
    | .faulted reason => .error reason s steps
  | fuel + 1, s, steps =>
    match step s with
    | .fault (.runEnded reason) => .error reason s steps
    | .refused why => .refused why
    | .next t =>
      match t.status with
      | .running => runFrom fuel t (steps + 1)
      | .faulted reason => .error reason t steps

/-- A run with the driver's instruction-count bound MAX_STEPS (R455). -/
def run (maxSteps : Nat) (s : State) : RunEnd := runFrom maxSteps s 0

/-- R455: a fall-through end of a program of `n` words: IllegalOpcode(0) at `pc = 4n`. It is still a
fault. -/
def RunEnd.isFallThrough (n : Nat) : RunEnd → Bool
  | .error reason s _ => decide (reason = .illegalOpcode 0) && decide (s.pc.toNat = 4 * n)
  | .bound _ _ => false
  | .refused _ => false

end Sys2Proof.Machine
end

