-- ==== Sys2Proof/Safety.lean ====
section
/-! DEFINITION. What counts as a good state and a good run, in the terms the statements use: the
invariant of the state, the states a run reaches, and the shapes of an instruction's outcome with its
frame. -/

namespace Sys2Proof.Machine

/-- What holds of the state at every point of a run that starts at an aligned RESET_PC: the word counts
are in D6's range, x0's slot holds 0 (spec/10_state.md R31), the PC is a multiple of 4 (R33), and
both memories are in canonical form within their capacity (R36, R37). -/
structure State.Inv (s : State) : Prop where
  cfgOk : s.cfg.ok
  x0Zero : s.regs[0] = 0
  pcAligned : aligned4 s.pc
  imemWf : s.imem.wf
  imemWithin : s.imem.within (4 * s.cfg.imemWords)
  dmemWf : s.dmem.wf
  dmemWithin : s.dmem.within (4 * s.cfg.dmemWords)

/-- The states a run reaches from the launch `l` (spec/70_reset_and_hazards.md R455). -/
inductive Reachable (l : LaunchArgs) : State → Prop
  | start {s : State} : launch l = .ok s → Reachable l s
  | step {s t : State} : Reachable l s → step s = .next t → Reachable l t

/-- Nothing but the PC, the DataMemory and the general registers differs: the InstructionMemory, the
status and the parameters are as they were. -/
def SameRest (s t : State) : Prop :=
  (∀ a, t.imem.read a = s.imem.read a) ∧ t.status = s.status ∧ t.cfg = s.cfg

/-- Every byte of the DataMemory reads as before. -/
def SameData (s t : State) : Prop := ∀ a, t.dmem.read a = s.dmem.read a

/-- Every register reads as before. -/
def SameRegs (s t : State) : Prop := ∀ r, t.getReg r = s.getReg r

/-- `v` is written to `rd` and to no other register; a write to x0 is discarded (R31). -/
def WritesReg (rd : RegIdx) (v : Word) (s t : State) : Prop :=
  ∀ r, t.getReg r = if r = rd ∧ r ≠ 0 then v else s.getReg r

/-- The outcome `o` is a next state in which `v` is written to `rd`, the PC is at the next sequential
instruction, and nothing else is changed. -/
def WritesBack (o : Result) (s : State) (rd : RegIdx) (v : Word) : Prop :=
  ∃ t, o = .next t ∧ WritesReg rd v s t ∧ t.pc = s.pc + 4 ∧ SameData s t ∧ SameRest s t

/-- The outcome `o` is a next state with the PC at `target` in which the link `pc +32 4` is written to
`rd` and nothing else is changed. -/
def LinksAndJumps (o : Result) (s : State) (rd : RegIdx) (target : Word) : Prop :=
  ∃ t, o = .next t ∧ WritesReg rd (s.pc + 4) s t ∧ t.pc = target ∧ SameData s t ∧ SameRest s t

/-- The outcome `o` is a next state that differs from `s` in the PC alone, which is at `target`. -/
def OnlyMovesPc (o : Result) (s : State) (target : Word) : Prop :=
  ∃ t, o = .next t ∧ t.pc = target ∧ SameRegs s t ∧ SameData s t ∧ SameRest s t

/-- The outcome `o` is a next state with the PC at the next sequential instruction in which the low `n`
bytes of `v` stand from `ea` on, little-endian, and no other byte and no register is changed. -/
def StoresBytes (o : Result) (s : State) (ea v : Word) (n : Nat) : Prop :=
  ∃ t, o = .next t ∧ t.pc = s.pc + 4 ∧ SameRegs s t ∧ SameRest s t
    ∧ (∀ k, k < n → t.dmem.read (ea.toNat + k) = v.extractLsb' (8 * k) 8)
    ∧ (∀ a, (a < ea.toNat ∨ ea.toNat + n ≤ a) → t.dmem.read a = s.dmem.read a)

/-- The outcome `o` is the Faulted successor state: nothing but the status is changed (R400, R403). -/
def FaultsWith (o : Result) (s : State) (reason : FaultReason) : Prop :=
  ∃ t, o = .next t ∧ t.status = .faulted reason ∧ t.pc = s.pc ∧ t.regs = s.regs
    ∧ t.imem = s.imem ∧ t.dmem = s.dmem ∧ t.cfg = s.cfg

/-- A fetch at `s` gives the word `w` (spec/20_memory.md R70): the state is Running, the PC is a
multiple of 4 inside the InstructionMemory, and its four bytes there, little-endian, are `w`. -/
def Fetches (s : State) (w : Word) : Prop :=
  s.status = .running ∧ s.pc.toNat % 4 = 0 ∧ s.pc.toNat + 4 ≤ 4 * s.cfg.imemWords
    ∧ ∀ k, k < 4 → s.imem.read (s.pc.toNat + k) = w.extractLsb' (8 * k) 8

/-- Every word of an opcode-map row decodes to the instruction that `build` makes from its fields. -/
def DecodesRow (pattern mask : Word) (build : Word → Instr) : Prop :=
  ∀ w, w &&& mask = pattern → decode w = .ok (build w)

end Sys2Proof.Machine
end

