-- ==== Sys2Proof/Certificates/Slice0/Obligations.lean ====
section
/-! DEFINITION. The statements for the provers. The shapes they use (WritesBack, LinksAndJumps,
OnlyMovesPc, StoresBytes, FaultsWith, Fetches, DecodesRow, Inv, Reachable) are defined in
Sys2Proof/Safety.lean; each says the frame as well as the effect. A sum `+` of two Words wraps modulo
2^32; `toNat` is the unsigned and `toInt` the signed reading (spec/00_scope.md R10). -/

open Sys2Proof Sys2Proof.Machine

namespace Sys2Proof.Machine

/-- The words R140 lists as having an unmapped funct combination. -/
def UnmappedWord (w : Word) : Prop :=
  (opcodeOf w = 0x33 ∧ ((funct7Of w ≠ 0x00 ∧ funct7Of w ≠ 0x20)
    ∨ (funct7Of w = 0x20 ∧ funct3Of w ≠ 0b000 ∧ funct3Of w ≠ 0b101)))
  ∨ (opcodeOf w = 0x13 ∧ funct3Of w = 0b001 ∧ funct7Of w ≠ 0x00)
  ∨ (opcodeOf w = 0x13 ∧ funct3Of w = 0b101 ∧ funct7Of w ≠ 0x00 ∧ funct7Of w ≠ 0x20)
  ∨ (opcodeOf w = 0x63 ∧ (funct3Of w = 0b010 ∨ funct3Of w = 0b011))
  ∨ (opcodeOf w = 0x03 ∧ (funct3Of w = 0b011 ∨ funct3Of w = 0b110 ∨ funct3Of w = 0b111))
  ∨ (opcodeOf w = 0x23 ∧ 3 ≤ (funct3Of w).toNat)
  ∨ (opcodeOf w = 0x67 ∧ funct3Of w ≠ 0b000)

/-- The word `w`, fetched, raises UnmappedFunct(instr) (R401 code 4). -/
def RaisesUnmapped (w : Word) : Prop := ∀ s : State, Fetches s w → FaultsWith (step s) s (.unmappedFunct w)

/-- The nine opcodes of R121. -/
def mappedOpcodes : List (BitVec 7) := [0x33, 0x13, 0x03, 0x67, 0x23, 0x63, 0x6F, 0x37, 0x17]

/-- R132 by instruction: whether a branch is taken on the comparator's outputs. -/
def takenBy (c : Comparison) : Instr → Bool
  | .beq _ _ _ => c.equal
  | .bne _ _ _ => !c.equal
  | .blt _ _ _ => c.lessThan
  | .bltu _ _ _ => c.lessThan
  | .bge _ _ _ => !c.lessThan
  | .bgeu _ _ _ => !c.lessThan
  | _ => false

/-- The effective address and the size of the data access of a load or store (R316, R320). -/
def accessOf (s : State) : Instr → Option (Word × Nat)
  | .lb _ rs1 imm => some (s.getReg rs1 + imm.signExtend 32, 1)
  | .lbu _ rs1 imm => some (s.getReg rs1 + imm.signExtend 32, 1)
  | .lh _ rs1 imm => some (s.getReg rs1 + imm.signExtend 32, 2)
  | .lhu _ rs1 imm => some (s.getReg rs1 + imm.signExtend 32, 2)
  | .lw _ rs1 imm => some (s.getReg rs1 + imm.signExtend 32, 4)
  | .sb _ rs1 imm => some (s.getReg rs1 + imm.signExtend 32, 1)
  | .sh _ rs1 imm => some (s.getReg rs1 + imm.signExtend 32, 2)
  | .sw _ rs1 imm => some (s.getReg rs1 + imm.signExtend 32, 4)
  | _ => none

/-- The target of a control transfer, taken or not (R290). -/
def targetOf (s : State) : Instr → Option Word
  | .jal _ off => some (s.pc + off.signExtend 32)
  | .jalr _ rs1 imm => some (s.getReg rs1 + imm.signExtend 32)
  | .beq _ _ off => some (s.pc + off.signExtend 32)
  | .bne _ _ off => some (s.pc + off.signExtend 32)
  | .blt _ _ off => some (s.pc + off.signExtend 32)
  | .bge _ _ off => some (s.pc + off.signExtend 32)
  | .bltu _ _ off => some (s.pc + off.signExtend 32)
  | .bgeu _ _ off => some (s.pc + off.signExtend 32)
  | _ => none

/-- What a jump to `target` does (R290, R291): it links and jumps, or faults and commits nothing. -/
def JumpRule (o : Result) (s : State) (rd : RegIdx) (target : Word) : Prop :=
  (target.toNat % 4 = 0 → LinksAndJumps o s rd target)
  ∧ (target.toNat % 4 ≠ 0 → FaultsWith o s (.targetMisaligned target))

/-- What a branch does when its condition is `cond` (R291, R294). -/
def BranchRule (o : Result) (s : State) (off : BitVec 13) (cond : Prop) : Prop :=
  (¬ cond → OnlyMovesPc o s (s.pc + 4))
  ∧ (cond → (s.pc + off.signExtend 32).toNat % 4 = 0 → OnlyMovesPc o s (s.pc + off.signExtend 32))
  ∧ (cond → (s.pc + off.signExtend 32).toNat % 4 ≠ 0 →
      FaultsWith o s (.targetMisaligned (s.pc + off.signExtend 32)))

/-- When a data access of `n` bytes at `ea` faults (R62 to R64). -/
def AccessFaults (o : Result) (s : State) (ea : Word) (n : Nat) : Prop :=
  (ea.toNat % 4 ≠ 0 → FaultsWith o s (.dataMisaligned ea))
  ∧ (ea.toNat % 4 = 0 → ea.toNat + n > 4 * s.cfg.dmemWords → FaultsWith o s (.dataOutOfRange ea))

/-- What a load of `n` bytes does (R316): it writes `v` to `rd`, or faults and writes nothing. -/
def LoadRule (o : Result) (s : State) (rd : RegIdx) (ea : Word) (n : Nat) (v : Word) : Prop :=
  (ea.toNat % 4 = 0 → ea.toNat + n ≤ 4 * s.cfg.dmemWords → WritesBack o s rd v)
  ∧ AccessFaults o s ea n

/-- What a store of the low `n` bytes of `v` does (R320): it stores them, or faults and stores nothing. -/
def StoreRule (o : Result) (s : State) (ea v : Word) (n : Nat) : Prop :=
  (ea.toNat % 4 = 0 → ea.toNat + n ≤ 4 * s.cfg.dmemWords → StoresBytes o s ea v n)
  ∧ AccessFaults o s ea n

end Sys2Proof.Machine

/-! ## Encoding -/

/-- R157: decoding is the exact inverse of encoding, for every instruction and every operand value that
its encoding admits. -/
def Obligations.DecodeInvertsEncode : Prop := ∀ i : Instr, i.wf = true → decode (encode i) = .ok i

/-- Every bit of a word that decodes is one of its instruction's: encoding the instruction gives the word
back, and the instruction is well-formed. -/
def Obligations.EncodeInvertsDecode : Prop :=
  ∀ (w : Word) (i : Instr), decode w = .ok i → i.wf = true ∧ encode i = w

/-- R136: a word is the instruction of a row when `instr & mask = match`; the rows are disjoint; a word
that matches no row is a decode fault. -/
def Obligations.OpcodeMapDecidesDecoding : Prop :=
  (∀ (w : Word) (i : Instr), decode w = .ok i → i.row ∈ opcodeMap ∧ w &&& i.row.mask = i.row.pattern)
  ∧ (∀ (w : Word) (r : OpcodeRow), r ∈ opcodeMap → w &&& r.mask = r.pattern →
      ∃ i, decode w = .ok i ∧ i.row = r)
  ∧ opcodeMap.Pairwise (fun a b => ∀ w : Word, ¬ (w &&& a.mask = a.pattern ∧ w &&& b.mask = b.pattern))
  ∧ (∀ w : Word, (∀ r ∈ opcodeMap, w &&& r.mask ≠ r.pattern) →
      decode w = .illegalOpcode ∨ decode w = .unmappedFunct)

/-- R122: a word whose opcode is none of the nine raises IllegalOpcode(instr). -/
def Obligations.UnknownOpcodeRaisesIllegalOpcode : Prop :=
  ∀ (s : State) (w : Word), Fetches s w → w.extractLsb' 0 7 ∉ mappedOpcodes →
    FaultsWith (step s) s (.illegalOpcode w)

/-- R140: exactly the listed words are illegal, each with the decode fault R140 gives it, and no
other field value is checked. What the source leaves to the decoder is the spec's decisions D7, D11,
D12 and D13. -/
def Obligations.IllegalWordsAreExactlyTheListed : Prop :=
  (∀ w : Word, decode w = .illegalOpcode ↔ opcodeOf w ∉ mappedOpcodes)
  ∧ (∀ w : Word, decode w = .unmappedFunct ↔ UnmappedWord w)
  ∧ (∀ w : Word, opcodeOf w ∈ mappedOpcodes → ¬ UnmappedWord w → ∃ i, decode w = .ok i)
  ∧ (∀ (s : State) (w : Word), Fetches s w → UnmappedWord w → FaultsWith (step s) s (.unmappedFunct w))

/-- Words the spec writes out bit by bit (95_test_vectors.md L1-3, L1-4) decode to what it says. -/
def Obligations.SourceWordsDecodeAsPrinted : Prop :=
  decode 0x00A48433#32 = .ok (.add 8 9 10) ∧ decode 0x40D100B3#32 = .ok (.sub 1 2 13)
  ∧ decode 0xFF448413#32 = .ok (.addi 8 9 (-12)) ∧ decode 0x0221A423#32 = .ok (.sw 2 3 40)
  ∧ decode 0x00310863#32 = .ok (.beq 2 3 16) ∧ decode 0x123451B7#32 = .ok (.lui 3 0x12345)
  ∧ decode 0x008000EF#32 = .ok (.jal 1 8)

/-- R111 to R116: the ImmediateGenerator's outputs in instruction-bit terms. -/
def Obligations.ImmediateGeneratorReadsInstructionBits : Prop :=
  ∀ w : Word,
    immGen (w.extractLsb' 7 25) .i = (w.extractLsb' 20 12).signExtend 32
    ∧ immGen (w.extractLsb' 7 25) .s = (w.extractLsb' 25 7 ++ w.extractLsb' 7 5).signExtend 32
    ∧ immGen (w.extractLsb' 7 25) .sb =
        (w.extractLsb' 31 1 ++ w.extractLsb' 7 1 ++ w.extractLsb' 25 6 ++ w.extractLsb' 8 4
          ++ 0#1).signExtend 32
    ∧ immGen (w.extractLsb' 7 25) .u = w.extractLsb' 12 20 ++ 0#12
    ∧ immGen (w.extractLsb' 7 25) .uj =
        (w.extractLsb' 31 1 ++ w.extractLsb' 12 8 ++ w.extractLsb' 20 1 ++ w.extractLsb' 21 10
          ++ 0#1).signExtend 32
    ∧ immGen (w.extractLsb' 7 25) .r = 0 ∧ immGen (w.extractLsb' 7 25) .pseudo = 0

/-- The ControlUnit gives every instruction's word the bundle of R134's table, a branch's pcSel being
TARGET exactly when R132 takes it. The rules give a signal printed "-" no meaning (R131); that it is none
in the bundle, as this equality also says, is the model's DEDUCED choice of log entry 6. -/
def Obligations.ControlUnitGivesTheSignalTable : Prop :=
  ∀ (lui : LuiAOperand) (c : Comparison) (i : Instr), i.wf = true →
    ∃ fmt sig, controlUnit lui (encode i) = .ok fmt sig
      ∧ (fmt, resolvePcSel fmt (funct3Of (encode i)) c sig) = bundleTable lui (takenBy c i) i

/-! ## The step -/

/-- The per-instruction meanings and the Datapath's cycle (R210), which runs the word by its control
signals, agree on every Running state. -/
def Obligations.StepIsTheDatapathCycle : Prop :=
  ∀ s : State, s.status = .running → step s = .next (cycle s)

/-- A step runs the decoded instruction: nothing is added around `exec`, which moves the PC itself. -/
def Obligations.StepRunsDecodedInstruction : Prop :=
  ∀ (s : State) (w : Word) (i : Instr), Fetches s w → decode w = .ok i → step s = exec i s

/-- A Faulted state has no step, and a fault leaves registers, PC and memories as they were (R402; the
status is the spec's decision D15). That `step` answers the host's fault `runEnded` where the spec has no
step is the model's DEDUCED rendering of log entry 3. -/
def Obligations.FaultsArePreciseAndFinal : Prop :=
  (∀ (s : State) (reason : FaultReason), s.status = .faulted reason →
    step s = .fault (.runEnded reason) ∧ ∀ t, step s ≠ .next t)
  ∧ (∀ (s t : State) (reason : FaultReason), s.status = .running → step s = .next t →
      t.status = .faulted reason → FaultsWith (step s) s reason)

/-- R217: a Running state has exactly one successor, Running or Faulted; a Faulted state has none.
The status is the spec's decision D15. -/
def Obligations.RunningStateHasExactlyOneSuccessor : Prop :=
  (∀ s : State, s.status = .running → ∃ t, step s = .next t ∧ (∀ t', step s = .next t' → t' = t)
    ∧ (t.status = .running ∨ ∃ reason, t.status = .faulted reason))
  ∧ (∀ (s : State) (reason : FaultReason), s.status = .faulted reason → ∀ t, step s ≠ .next t)

/-- R70: the two fetch faults, in their order, and otherwise the word of the four bytes at the PC;
and FetchMisaligned only where RESET_PC is not a multiple of 4. The byte order and the order of the
faults are the spec's decisions D1 and D16. -/
def Obligations.FetchFaultsOrReadsTheWordAtPc : Prop :=
  (∀ s : State, s.status = .running →
    (s.pc.toNat % 4 ≠ 0 → FaultsWith (step s) s (.fetchMisaligned s.pc))
    ∧ (s.pc.toNat % 4 = 0 → s.pc.toNat + 4 > 4 * s.cfg.imemWords →
        FaultsWith (step s) s (.fetchOutOfRange s.pc))
    ∧ (s.pc.toNat % 4 = 0 → s.pc.toNat + 4 ≤ 4 * s.cfg.imemWords →
        ∃ w, Fetches s w ∧ fetch s = .ok w))
  ∧ ∀ (l : LaunchArgs) (s t : State) (a : Word), l.cfg.resetPc.toNat % 4 = 0 → Reachable l s →
      step s = .next t → t.status ≠ .faulted (.fetchMisaligned a)

/-- R401, R404: a step that faults does so for the reason's own cause: a fetch fault for the PC, a
decode fault for the fetched word, a data fault only for a load or store and for its effective
address, a target fault only for a control transfer and for its target. The reasons and their order
are the spec's decisions D14 to D16 and D29. -/
def Obligations.EveryFaultHasItsOwnCause : Prop :=
  ∀ (s t : State), s.status = .running → step s = .next t →
    (∀ a, t.status = .faulted (.fetchMisaligned a) → a = s.pc ∧ s.pc.toNat % 4 ≠ 0)
    ∧ (∀ a, t.status = .faulted (.fetchOutOfRange a) →
        a = s.pc ∧ s.pc.toNat % 4 = 0 ∧ s.pc.toNat + 4 > 4 * s.cfg.imemWords)
    ∧ (∀ w, t.status = .faulted (.illegalOpcode w) → Fetches s w ∧ opcodeOf w ∉ mappedOpcodes)
    ∧ (∀ w, t.status = .faulted (.unmappedFunct w) → Fetches s w ∧ UnmappedWord w)
    ∧ (∀ ea, t.status = .faulted (.dataMisaligned ea) → ∃ w i n, Fetches s w ∧ decode w = .ok i
        ∧ accessOf s i = some (ea, n) ∧ ea.toNat % 4 ≠ 0)
    ∧ (∀ ea, t.status = .faulted (.dataOutOfRange ea) → ∃ w i n, Fetches s w ∧ decode w = .ok i
        ∧ accessOf s i = some (ea, n) ∧ ea.toNat % 4 = 0 ∧ ea.toNat + n > 4 * s.cfg.dmemWords)
    ∧ (∀ target, t.status = .faulted (.targetMisaligned target) → ∃ w i, Fetches s w
        ∧ decode w = .ok i ∧ targetOf s i = some target ∧ target.toNat % 4 ≠ 0)

/-- R65: only stores write the DataMemory; only loads read it (a step of any other word is the same
whatever the DataMemory holds); and no other word raises a data fault. The spec's decision D9, on
conflict C3. -/
def Obligations.OnlyLoadsReadAndOnlyStoresWriteData : Prop :=
  ∀ (s t : State) (w : Word), Fetches s w → step s = .next t →
    (opcodeOf w ≠ 0x23 → t.dmem = s.dmem)
    ∧ (opcodeOf w ≠ 0x03 → ∀ m : Memory, ∃ m' : Memory,
        step { s with dmem := m } = .next { t with dmem := m' })
    ∧ (opcodeOf w ≠ 0x03 → opcodeOf w ≠ 0x23 → ∀ ea : Word,
        t.status ≠ .faulted (.dataMisaligned ea) ∧ t.status ≠ .faulted (.dataOutOfRange ea))

/-- R76: the InstructionMemory is never written, so what a fetch reads is the loaded program for the
whole run; the construction parameters do not change either. -/
def Obligations.InstructionMemoryNeverChanges : Prop :=
  (∀ s t : State, step s = .next t → t.imem = s.imem ∧ t.cfg = s.cfg)
  ∧ (∀ (n : Nat) (s t : State), Sys2Proof.core.run n s = .next t → t.imem = s.imem ∧ t.cfg = s.cfg)

/-- R214: a register changes only as the rd of a word whose regWriteEnable is 1 (any format but S and
SB), and never x0. -/
def Obligations.OnlyRdOfAWritingWordChanges : Prop :=
  ∀ (s t : State) (w : Word) (r : RegIdx), Fetches s w → step s = .next t →
    t.getReg r ≠ s.getReg r → r = rdOf w ∧ r ≠ 0 ∧ opcodeOf w ≠ 0x23 ∧ opcodeOf w ≠ 0x63

/-- R31: reads of x0 return 0, writes to it are no-ops, and its slot is 0 in every reachable state. -/
def Obligations.RegisterZeroIsHardWired : Prop :=
  (∀ s : State, s.getReg 0 = 0) ∧ (∀ (s : State) (v : Word), s.setReg 0 v = s)
  ∧ (∀ (l : LaunchArgs) (s : State), Reachable l s → s.regs[0] = 0)

/-- R215, R290: where the PC of a completed cycle is. -/
def Obligations.PcMovesToTheNextWordOrTheTarget : Prop :=
  ∀ (s t : State) (w : Word) (i : Instr), Fetches s w → decode w = .ok i → step s = .next t →
    t.status = .running → t.pc = s.pc + 4 ∨ (targetOf s i = some t.pc ∧ t.pc.toNat % 4 = 0)

/-! ## Invariants -/

/-- The invariant of State.Inv: D6's word counts, x0's slot, the PC's alignment, and both memories
canonical and within their capacity, is kept by every step, from every state that meets it. -/
def Obligations.StepKeepsTheInvariant : Prop :=
  ∀ s t : State, s.Inv → step s = .next t → t.Inv

/-- State.reset is the launch of defaultConfig that loads no program and preloads nothing, and meets the
invariant. That State.reset is that launch is the model's choice of log entry 2 (DEDUCED), and its word
counts are that of log entry 1 (DESIGN CHOICE). -/
def Obligations.ResetMeetsTheInvariant : Prop :=
  launch { cfg := defaultConfig, program := [], regs := Vector.replicate 32 0, data := [] }
      = .ok State.reset
  ∧ State.reset.Inv

/-- R31's and R33's invariants, the memories' sizes of R36 and R37 and the rest of State.Inv hold in every state a run reaches from a launch whose
RESET_PC is a multiple of 4 (the only launches R450 says should be made). -/
def Obligations.ReachableStatesMeetTheInvariant : Prop :=
  ∀ (l : LaunchArgs) (s : State), l.cfg.resetPc.toNat % 4 = 0 → Reachable l s → s.Inv

/-! ## Launch and run -/

/-- R44: the value of every piece of state when a run starts. The values are the spec's decisions D1 to
D5. -/
def Obligations.LaunchStateHoldsWhatTheLaunchSupplies : Prop :=
  ∀ (l : LaunchArgs) (s : State), launch l = .ok s →
    (∀ r : RegIdx, s.getReg r = if r = 0 then 0 else l.regs[r])
    ∧ s.pc = l.cfg.resetPc ∧ s.status = .running ∧ s.cfg = l.cfg
    ∧ (∀ (i : Nat) (h : i < l.program.length) (k : Nat), k < 4 →
        s.imem.read (4 * i + k) = l.program[i].extractLsb' (8 * k) 8)
    ∧ (∀ a, 4 * l.program.length ≤ a → s.imem.read a = 0)
    ∧ ((l.data.map (·.1)).Nodup → ∀ c ∈ l.data, s.dmem.read c.1 = c.2)
    ∧ (∀ a, a ∉ l.data.map (·.1) → s.dmem.read a = 0)

/-- R450: the start PC is RESET_PC, 0 by default; where it is no multiple of 4 or not below
4*IMEM_WORDS, the first fetch faults. The default is the spec's decision D2. -/
def Obligations.BadResetPcFaultsAtTheFirstFetch : Prop :=
  State.reset.pc = 0 ∧ ∀ (l : LaunchArgs) (s : State), launch l = .ok s →
    s.pc = l.cfg.resetPc
    ∧ (l.cfg.resetPc.toNat % 4 ≠ 0 → FaultsWith (step s) s (.fetchMisaligned l.cfg.resetPc))
    ∧ (l.cfg.resetPc.toNat % 4 = 0 → 4 * l.cfg.imemWords ≤ l.cfg.resetPc.toNat →
        FaultsWith (step s) s (.fetchOutOfRange l.cfg.resetPc))

/-- R452: a program longer than the InstructionMemory is refused, and a program that runs past its last
instruction faults, with IllegalOpcode(0) or, where it fills the memory, FetchOutOfRange. -/
def Obligations.RunningPastTheProgramFaults : Prop :=
  (∀ (l : LaunchArgs) (s : State), l.program.length > l.cfg.imemWords → launch l ≠ .ok s)
  ∧ ∀ (l : LaunchArgs) (t : State), Reachable l t → t.status = .running →
      t.pc.toNat = 4 * l.program.length →
      (l.program.length < l.cfg.imemWords → FaultsWith (step t) t (.illegalOpcode 0))
      ∧ (l.program.length = l.cfg.imemWords → FaultsWith (step t) t (.fetchOutOfRange t.pc))

/-- R455: a run ends at the first Faulted state, or at `steps = MAX_STEPS` with status Running, and its
final state is that of so many steps. A faulting instruction is not counted (log 10). -/
def Obligations.RunEndsAtAFaultOrAtTheBound : Prop :=
  ∀ (n : Nat) (s : State), s.status = .running →
    (∀ t k, run n s = .bound t k →
      k = n ∧ t.status = .running ∧ Sys2Proof.core.run n s = .next t)
    ∧ (∀ reason t k, run n s = .error reason t k →
      k < n ∧ t.status = .faulted reason ∧ Sys2Proof.core.run (k + 1) s = .next t
        ∧ ∃ u, Sys2Proof.core.run k s = .next u ∧ u.status = .running)
    ∧ (∀ why, run n s ≠ .refused why)

/-! ## Functional units -/

/-- R201: the ALU's eleven results, in numbers and bits. NOT's operand is the spec's decision D20,
and the values 1 and 0 of SLT and SLTU its general knowledge (log 13). -/
def Obligations.AluResultsInNumbersAndBits : Prop :=
  ∀ a b : Word,
    (alu a b .add).toNat = (a.toNat + b.toNat) % 2 ^ 32
    ∧ (alu a b .sub).toNat = (2 ^ 32 + a.toNat - b.toNat) % 2 ^ 32
    ∧ (∀ k, (alu a b .and).getLsbD k = (a.getLsbD k && b.getLsbD k))
    ∧ (∀ k, (alu a b .or).getLsbD k = (a.getLsbD k || b.getLsbD k))
    ∧ (∀ k, (alu a b .xor).getLsbD k = (a.getLsbD k ^^ b.getLsbD k))
    ∧ (∀ k, k < 32 → (alu a b .not).getLsbD k = !a.getLsbD k)
    ∧ (alu a b .sll).toNat = a.toNat * 2 ^ (b.toNat % 32) % 2 ^ 32
    ∧ (alu a b .srl).toNat = a.toNat / 2 ^ (b.toNat % 32)
    ∧ (∀ k, k < 32 → (alu a b .sra).getLsbD k = a.getLsbD (min (k + b.toNat % 32) 31))
    ∧ (alu a b .slt).toNat = (if a.toInt < b.toInt then 1 else 0)
    ∧ (alu a b .sltu).toNat = (if a.toNat < b.toNat then 1 else 0)

/-- R202: a shift uses only the low five bits of operand B. -/
def Obligations.ShiftsUseFiveBitsOfOperandB : Prop :=
  ∀ (op : AluOp) (a b b' : Word), (op = .sll ∨ op = .srl ∨ op = .sra) →
    (∀ k, k < 5 → b.getLsbD k = b'.getLsbD k) → alu a b op = alu a b' op

/-- R8: sign extension from `w` bits copies bit `w-1` into the bits above, and is idempotent. -/
def Obligations.SignExtensionCopiesTheTopBit : Prop :=
  ∀ (v : Word) (w : Nat), 1 ≤ w → w ≤ 32 →
    (∀ k, k < 32 → (sext32 v w).getLsbD k = v.getLsbD (min k (w - 1)))
    ∧ sext32 (sext32 v w) w = sext32 v w

/-- R68: an access of the DataMemory is Denied exactly when it is made with its enable off; Denied
carries neither a value, nor a memory, nor a fault. That no addressing fault comes first is log
entry 7, and that an argument says which access is attempted is log entry 18. -/
def Obligations.AccessIsDeniedExactlyWithItsEnableOff : Prop :=
  ∀ (s : State) (p : MemPort),
    (dataMemory s .read p = .denied ↔ p.readEnable = false)
    ∧ (dataMemory s .write p = .denied ↔ p.writeEnable = false)

/-- R60, R65, R68: the ports that a cycle drives the DataMemory with. A word issues an access exactly when
it is a load or a store, of its size, at the ALU result `r`, with `x[rs2]` as data; readEnable is asserted
for loads only and writeEnable for stores only, from memRW; and the access is never Denied. That memRW
says which access is attempted is log entry 18. -/
def Obligations.CycleDrivesTheDataMemoryPorts : Prop :=
  ∀ (s : State) (lui : LuiAOperand) (w r v2 : Word) (fmt : Format) (c : Comparison)
    (sig0 sig : ControlSignals), controlUnit lui w = .ok fmt sig0 →
    sig = resolvePcSel fmt (funct3Of w) c sig0 →
    ((dataPort (opcodeOf w) sig r v2).isSome = true ↔ opcodeOf w = 0x03 ∨ opcodeOf w = 0x23)
    ∧ ∀ p : MemPort, dataPort (opcodeOf w) sig r v2 = some p →
      p.addr = r ∧ sig.loadStoreSize = some p.size ∧ p.wdata = v2
      ∧ (p.readEnable = true ↔ opcodeOf w = 0x03)
      ∧ (p.writeEnable = true ↔ opcodeOf w = 0x23) ∧ (p.writeEnable = true ↔ sig.memRW = .write)
      ∧ dataMemory s sig.memRW p ≠ .denied

/-! ## Register-register instructions -/

/-- R240, R241: ADD and SUB, modulo 2^32. -/
def Obligations.AddAndSubWrapModuloTwoTo32 : Prop :=
  DecodesRow 0x00000033 0xFE00707F (fun w => .add (rdOf w) (rs1Of w) (rs2Of w))
  ∧ DecodesRow 0x40000033 0xFE00707F (fun w => .sub (rdOf w) (rs1Of w) (rs2Of w))
  ∧ ∀ (rd rs1 rs2 : RegIdx) (s : State),
    WritesBack (exec (.add rd rs1 rs2) s) s rd (s.getReg rs1 + s.getReg rs2)
    ∧ WritesBack (exec (.sub rd rs1 rs2) s) s rd (s.getReg rs1 - s.getReg rs2)

/-- R242, R246, R247: SLL, SRL and SRA by the low five bits of x[rs2]. SRA's result is the signed value
divided by the power of two, rounded down. -/
def Obligations.RegisterShiftsByTheLowFiveBits : Prop :=
  DecodesRow 0x00001033 0xFE00707F (fun w => .sll (rdOf w) (rs1Of w) (rs2Of w))
  ∧ DecodesRow 0x00005033 0xFE00707F (fun w => .srl (rdOf w) (rs1Of w) (rs2Of w))
  ∧ DecodesRow 0x40005033 0xFE00707F (fun w => .sra (rdOf w) (rs1Of w) (rs2Of w))
  ∧ ∀ (rd rs1 rs2 : RegIdx) (s : State),
    WritesBack (exec (.sll rd rs1 rs2) s) s rd (s.getReg rs1 <<< ((s.getReg rs2).toNat % 32))
    ∧ WritesBack (exec (.srl rd rs1 rs2) s) s rd (s.getReg rs1 >>> ((s.getReg rs2).toNat % 32))
    ∧ WritesBack (exec (.sra rd rs1 rs2) s) s rd
        (BitVec.ofInt 32 ((s.getReg rs1).toInt / 2 ^ ((s.getReg rs2).toNat % 32)))

/-- R243, R244: SLT compares signed and SLTU unsigned. The values 1 and 0 are the spec's general
knowledge (R201; log 13). -/
def Obligations.SltAndSltuCompareRegisters : Prop :=
  DecodesRow 0x00002033 0xFE00707F (fun w => .slt (rdOf w) (rs1Of w) (rs2Of w))
  ∧ DecodesRow 0x00003033 0xFE00707F (fun w => .sltu (rdOf w) (rs1Of w) (rs2Of w))
  ∧ ∀ (rd rs1 rs2 : RegIdx) (s : State),
    WritesBack (exec (.slt rd rs1 rs2) s) s rd
        (if (s.getReg rs1).toInt < (s.getReg rs2).toInt then 1 else 0)
    ∧ WritesBack (exec (.sltu rd rs1 rs2) s) s rd
        (if (s.getReg rs1).toNat < (s.getReg rs2).toNat then 1 else 0)

/-- R245, R248, R249: XOR, OR and AND. -/
def Obligations.XorOrAndCombineRegisters : Prop :=
  DecodesRow 0x00004033 0xFE00707F (fun w => .xor (rdOf w) (rs1Of w) (rs2Of w))
  ∧ DecodesRow 0x00006033 0xFE00707F (fun w => .or (rdOf w) (rs1Of w) (rs2Of w))
  ∧ DecodesRow 0x00007033 0xFE00707F (fun w => .and (rdOf w) (rs1Of w) (rs2Of w))
  ∧ ∀ (rd rs1 rs2 : RegIdx) (s : State),
    WritesBack (exec (.xor rd rs1 rs2) s) s rd (s.getReg rs1 ^^^ s.getReg rs2)
    ∧ WritesBack (exec (.or rd rs1 rs2) s) s rd (s.getReg rs1 ||| s.getReg rs2)
    ∧ WritesBack (exec (.and rd rs1 rs2) s) s rd (s.getReg rs1 &&& s.getReg rs2)

/-! ## Register-immediate instructions -/

/-- R260: ADDI, with every 12-bit immediate, sign-extended. -/
def Obligations.AddiAddsTheSignExtendedImmediate : Prop :=
  DecodesRow 0x00000013 0x0000707F (fun w => .addi (rdOf w) (rs1Of w) (w.extractLsb' 20 12))
  ∧ ∀ (rd rs1 : RegIdx) (imm : BitVec 12) (s : State),
    WritesBack (exec (.addi rd rs1 imm) s) s rd (s.getReg rs1 + imm.signExtend 32)

/-- R261, R262: SLTI and SLTIU compare with the sign-extended immediate. The values 1 and 0 are the
spec's general knowledge (R201; log 13). -/
def Obligations.SltiAndSltiuCompareWithTheImmediate : Prop :=
  DecodesRow 0x00002013 0x0000707F (fun w => .slti (rdOf w) (rs1Of w) (w.extractLsb' 20 12))
  ∧ DecodesRow 0x00003013 0x0000707F (fun w => .sltiu (rdOf w) (rs1Of w) (w.extractLsb' 20 12))
  ∧ ∀ (rd rs1 : RegIdx) (imm : BitVec 12) (s : State),
    WritesBack (exec (.slti rd rs1 imm) s) s rd
        (if (s.getReg rs1).toInt < (imm.signExtend 32).toInt then 1 else 0)
    ∧ WritesBack (exec (.sltiu rd rs1 imm) s) s rd
        (if (s.getReg rs1).toNat < (imm.signExtend 32).toNat then 1 else 0)

/-- R263, R264, R265: XORI, ORI and ANDI. -/
def Obligations.XoriOriAndiCombineWithTheImmediate : Prop :=
  DecodesRow 0x00004013 0x0000707F (fun w => .xori (rdOf w) (rs1Of w) (w.extractLsb' 20 12))
  ∧ DecodesRow 0x00006013 0x0000707F (fun w => .ori (rdOf w) (rs1Of w) (w.extractLsb' 20 12))
  ∧ DecodesRow 0x00007013 0x0000707F (fun w => .andi (rdOf w) (rs1Of w) (w.extractLsb' 20 12))
  ∧ ∀ (rd rs1 : RegIdx) (imm : BitVec 12) (s : State),
    WritesBack (exec (.xori rd rs1 imm) s) s rd (s.getReg rs1 ^^^ imm.signExtend 32)
    ∧ WritesBack (exec (.ori rd rs1 imm) s) s rd (s.getReg rs1 ||| imm.signExtend 32)
    ∧ WritesBack (exec (.andi rd rs1 imm) s) s rd (s.getReg rs1 &&& imm.signExtend 32)

/-- R266, R267, R268: SLLI, SRLI and SRAI by `instr[24:20]`; another value of `instr[31:25]` raises
UnmappedFunct. The faults are the spec's decision D7. -/
def Obligations.ImmediateShiftsByTheShamtField : Prop :=
  DecodesRow 0x00001013 0xFE00707F (fun w => .slli (rdOf w) (rs1Of w) (w.extractLsb' 20 5))
  ∧ DecodesRow 0x00005013 0xFE00707F (fun w => .srli (rdOf w) (rs1Of w) (w.extractLsb' 20 5))
  ∧ DecodesRow 0x40005013 0xFE00707F (fun w => .srai (rdOf w) (rs1Of w) (w.extractLsb' 20 5))
  ∧ (∀ w : Word, w &&& 0x0000707F = 0x00001013 → funct7Of w ≠ 0x00 → RaisesUnmapped w)
  ∧ (∀ w : Word, w &&& 0x0000707F = 0x00005013 → funct7Of w ≠ 0x00 → funct7Of w ≠ 0x20 →
      RaisesUnmapped w)
  ∧ ∀ (rd rs1 : RegIdx) (shamt : BitVec 5) (s : State),
    WritesBack (exec (.slli rd rs1 shamt) s) s rd (s.getReg rs1 <<< shamt.toNat)
    ∧ WritesBack (exec (.srli rd rs1 shamt) s) s rd (s.getReg rs1 >>> shamt.toNat)
    ∧ WritesBack (exec (.srai rd rs1 shamt) s) s rd
        (BitVec.ofInt 32 ((s.getReg rs1).toInt / 2 ^ shamt.toNat))

/-! ## Upper-immediate instructions -/

/-- R280: LUI under both values of LUI_A_OPERAND; `imm[7:3]` of its operand is `instr[19:15]`. The
parameter is the spec's decision D8, on conflict C2. -/
def Obligations.LuiWritesTheUpperImmediate : Prop :=
  DecodesRow 0x00000037 0x0000007F (fun w => .lui (rdOf w) (w.extractLsb' 12 20))
  ∧ (∀ w : Word, regOf ((w.extractLsb' 12 20).extractLsb' 3 5) = rs1Of w)
  ∧ ∀ (rd : RegIdx) (imm : BitVec 20) (s : State),
    (s.cfg.luiAOperand = .zero → WritesBack (exec (.lui rd imm) s) s rd (imm ++ 0#12))
    ∧ (s.cfg.luiAOperand = .rs1 →
        WritesBack (exec (.lui rd imm) s) s rd
          (s.getReg (regOf (imm.extractLsb' 3 5)) + (imm ++ 0#12)))

/-- R281: AUIPC adds the upper immediate to the address of the AUIPC itself. -/
def Obligations.AuipcAddsTheUpperImmediateToPc : Prop :=
  DecodesRow 0x00000017 0x0000007F (fun w => .auipc (rdOf w) (w.extractLsb' 12 20))
  ∧ ∀ (rd : RegIdx) (imm : BitVec 20) (s : State),
    WritesBack (exec (.auipc rd imm) s) s rd (s.pc + (imm ++ 0#12))

/-! ## Control transfer -/

/-- R292: JAL. The fault is the spec's decision D14. -/
def Obligations.JalLinksAndJumpsOrFaults : Prop :=
  DecodesRow 0x0000006F 0x0000007F (fun w => .jal (rdOf w)
    (w.extractLsb' 31 1 ++ w.extractLsb' 12 8 ++ w.extractLsb' 20 1 ++ w.extractLsb' 21 10 ++ 0#1))
  ∧ ∀ (rd : RegIdx) (off : BitVec 21) (s : State),
    JumpRule (exec (.jal rd off) s) s rd (s.pc + off.signExtend 32)

/-- R293: JALR. Its target is formed from the old x[rs1], bit 0 is not cleared, and another funct3
raises UnmappedFunct. The faults are the spec's decisions D13 and D14. -/
def Obligations.JalrLinksAndJumpsOrFaults : Prop :=
  DecodesRow 0x00000067 0x0000707F (fun w => .jalr (rdOf w) (rs1Of w) (w.extractLsb' 20 12))
  ∧ (∀ w : Word, opcodeOf w = 0x67 → funct3Of w ≠ 0b000 → RaisesUnmapped w)
  ∧ ∀ (rd rs1 : RegIdx) (imm : BitVec 12) (s : State),
    JumpRule (exec (.jalr rd rs1 imm) s) s rd (s.getReg rs1 + imm.signExtend 32)

/-- R295, R296: BEQ and BNE. The fault is the spec's decision D14. -/
def Obligations.BeqAndBneBranchOnEquality : Prop :=
  DecodesRow 0x00000063 0x0000707F (fun w => .beq (rs1Of w) (rs2Of w) (immSBOf w))
  ∧ DecodesRow 0x00001063 0x0000707F (fun w => .bne (rs1Of w) (rs2Of w) (immSBOf w))
  ∧ ∀ (rs1 rs2 : RegIdx) (off : BitVec 13) (s : State),
    BranchRule (exec (.beq rs1 rs2 off) s) s off (s.getReg rs1 = s.getReg rs2)
    ∧ BranchRule (exec (.bne rs1 rs2 off) s) s off (s.getReg rs1 ≠ s.getReg rs2)

/-- R297, R298: BLT and BGE, signed. The fault is the spec's decision D14. -/
def Obligations.BltAndBgeBranchOnSignedOrder : Prop :=
  DecodesRow 0x00004063 0x0000707F (fun w => .blt (rs1Of w) (rs2Of w) (immSBOf w))
  ∧ DecodesRow 0x00005063 0x0000707F (fun w => .bge (rs1Of w) (rs2Of w) (immSBOf w))
  ∧ ∀ (rs1 rs2 : RegIdx) (off : BitVec 13) (s : State),
    BranchRule (exec (.blt rs1 rs2 off) s) s off ((s.getReg rs1).toInt < (s.getReg rs2).toInt)
    ∧ BranchRule (exec (.bge rs1 rs2 off) s) s off ((s.getReg rs2).toInt ≤ (s.getReg rs1).toInt)

/-- R299, R300: BLTU and BGEU, unsigned. branchUnsigned is the spec's decision D10 and the fault its
decision D14. -/
def Obligations.BltuAndBgeuBranchOnUnsignedOrder : Prop :=
  DecodesRow 0x00006063 0x0000707F (fun w => .bltu (rs1Of w) (rs2Of w) (immSBOf w))
  ∧ DecodesRow 0x00007063 0x0000707F (fun w => .bgeu (rs1Of w) (rs2Of w) (immSBOf w))
  ∧ ∀ (rs1 rs2 : RegIdx) (off : BitVec 13) (s : State),
    BranchRule (exec (.bltu rs1 rs2 off) s) s off ((s.getReg rs1).toNat < (s.getReg rs2).toNat)
    ∧ BranchRule (exec (.bgeu rs1 rs2 off) s) s off ((s.getReg rs2).toNat ≤ (s.getReg rs1).toNat)

/-! ## Loads and stores -/

/-- R311, R314: LB and LBU. The faults' bounds and order are the spec's decisions D16, D17 and D24.
-/
def Obligations.ByteLoadsExtendTheByte : Prop :=
  DecodesRow 0x00000003 0x0000707F (fun w => .lb (rdOf w) (rs1Of w) (w.extractLsb' 20 12))
  ∧ DecodesRow 0x00004003 0x0000707F (fun w => .lbu (rdOf w) (rs1Of w) (w.extractLsb' 20 12))
  ∧ ∀ (rd rs1 : RegIdx) (imm : BitVec 12) (s : State),
    LoadRule (exec (.lb rd rs1 imm) s) s rd (s.getReg rs1 + imm.signExtend 32) 1
      ((s.dmem.read (s.getReg rs1 + imm.signExtend 32).toNat).signExtend 32)
    ∧ LoadRule (exec (.lbu rd rs1 imm) s) s rd (s.getReg rs1 + imm.signExtend 32) 1
      ((s.dmem.read (s.getReg rs1 + imm.signExtend 32).toNat).setWidth 32)

/-- R312, R315: LH and LHU, the byte at the higher address being the higher byte. The byte order is
the spec's decision D1, the faults' bounds and order its decisions D16, D17 and D24. -/
def Obligations.HalfLoadsExtendTheHalfWord : Prop :=
  DecodesRow 0x00001003 0x0000707F (fun w => .lh (rdOf w) (rs1Of w) (w.extractLsb' 20 12))
  ∧ DecodesRow 0x00005003 0x0000707F (fun w => .lhu (rdOf w) (rs1Of w) (w.extractLsb' 20 12))
  ∧ ∀ (rd rs1 : RegIdx) (imm : BitVec 12) (s : State),
    LoadRule (exec (.lh rd rs1 imm) s) s rd (s.getReg rs1 + imm.signExtend 32) 2
      ((s.dmem.read ((s.getReg rs1 + imm.signExtend 32).toNat + 1)
        ++ s.dmem.read (s.getReg rs1 + imm.signExtend 32).toNat).signExtend 32)
    ∧ LoadRule (exec (.lhu rd rs1 imm) s) s rd (s.getReg rs1 + imm.signExtend 32) 2
      ((s.dmem.read ((s.getReg rs1 + imm.signExtend 32).toNat + 1)
        ++ s.dmem.read (s.getReg rs1 + imm.signExtend 32).toNat).setWidth 32)

/-- R313: LW. The byte order is the spec's decision D1, the faults' bounds and order its decisions
D16, D17 and D24. -/
def Obligations.WordLoadReadsFourBytes : Prop :=
  DecodesRow 0x00002003 0x0000707F (fun w => .lw (rdOf w) (rs1Of w) (w.extractLsb' 20 12))
  ∧ ∀ (rd rs1 : RegIdx) (imm : BitVec 12) (s : State),
    LoadRule (exec (.lw rd rs1 imm) s) s rd (s.getReg rs1 + imm.signExtend 32) 4
      (s.dmem.read ((s.getReg rs1 + imm.signExtend 32).toNat + 3)
        ++ s.dmem.read ((s.getReg rs1 + imm.signExtend 32).toNat + 2)
        ++ s.dmem.read ((s.getReg rs1 + imm.signExtend 32).toNat + 1)
        ++ s.dmem.read (s.getReg rs1 + imm.signExtend 32).toNat)

/-- R317, R318, R319: SB, SH and SW, from every state whose DataMemory is in canonical form (a part
of State.Inv). The byte order is the spec's decision D1, the faults' bounds and order its decisions
D16, D17 and D24. -/
def Obligations.StoresWriteExactlyTheirBytes : Prop :=
  DecodesRow 0x00000023 0x0000707F (fun w => .sb (rs2Of w) (rs1Of w) (immSOf w))
  ∧ DecodesRow 0x00001023 0x0000707F (fun w => .sh (rs2Of w) (rs1Of w) (immSOf w))
  ∧ DecodesRow 0x00002023 0x0000707F (fun w => .sw (rs2Of w) (rs1Of w) (immSOf w))
  ∧ ∀ (rs2 rs1 : RegIdx) (imm : BitVec 12) (s : State), s.dmem.wf →
    StoreRule (exec (.sb rs2 rs1 imm) s) s (s.getReg rs1 + imm.signExtend 32) (s.getReg rs2) 1
    ∧ StoreRule (exec (.sh rs2 rs1 imm) s) s (s.getReg rs1 + imm.signExtend 32) (s.getReg rs2) 2
    ∧ StoreRule (exec (.sw rs2 rs1 imm) s) s (s.getReg rs1 + imm.signExtend 32) (s.getReg rs2) 4

/-- R61: after a store of a word, a load of each width at the same address sees the little-endian
layout. The byte order is the spec's decision D1. -/
def Obligations.LoadsSeeTheLittleEndianLayoutOfAStore : Prop :=
  ∀ (s t : State) (rs2 rs1 rd base : RegIdx) (imm off : BitVec 12),
    s.dmem.wf → (s.getReg rs1 + imm.signExtend 32).toNat % 4 = 0 →
    (s.getReg rs1 + imm.signExtend 32).toNat + 4 ≤ 4 * s.cfg.dmemWords →
    exec (.sw rs2 rs1 imm) s = .next t →
    t.getReg base + off.signExtend 32 = s.getReg rs1 + imm.signExtend 32 →
    WritesBack (exec (.lw rd base off) t) t rd (s.getReg rs2)
    ∧ WritesBack (exec (.lhu rd base off) t) t rd (((s.getReg rs2).extractLsb' 0 16).setWidth 32)
    ∧ WritesBack (exec (.lh rd base off) t) t rd (((s.getReg rs2).extractLsb' 0 16).signExtend 32)
    ∧ WritesBack (exec (.lbu rd base off) t) t rd (((s.getReg rs2).extractLsb' 0 8).setWidth 32)
    ∧ WritesBack (exec (.lb rd base off) t) t rd (((s.getReg rs2).extractLsb' 0 8).signExtend 32)

/-! ## The assembler's syntax -/

/-- What the assembler builds from a line of text has an encoding, so decoding its word gives it back
(R154, R157). -/
def Obligations.AssembledLinesAreWellFormed : Prop :=
  ∀ (line : List Char) (i : Instr), assembleLine line = .ok (some i) →
    i.wf = true ∧ decode (encode i) = .ok i

/-- D28, R158: the loader accepts exactly the values of a 32-bit word, and keeps the value. -/
def Obligations.LoaderAcceptsExactlyThe32BitValues : Prop :=
  ∀ (v : Int) (w : Word), loaderWord v = .ok w ↔ (0 ≤ v ∧ v < 2 ^ 32 ∧ (w.toNat : Int) = v)

/-- R158, R452: a text written for a program loads back as that program, and assemble-then-load is the
launch from the text that the assembler writes for persistence. The written form, and that a source with
a fault is not launched, are the model's choices of log entry 17. -/
def Obligations.PersistedProgramsLoadBack : Prop :=
  (∀ p : List Word, loadText (programText p) = .ok p)
  ∧ ∀ (l : LaunchArgs) (source : List Char) (s : State), launchSource l source = .ok s ↔
      ∃ text, assembleText source = (text, none) ∧ launchText l text = .ok s

/-- R158, R452 step 2: what a machine-code text launches is what a launch of its words does, each word
being its line's, in the order of the lines. That a line holds nothing beside its integer is log entry 17. -/
def Obligations.ATextLaunchesTheWordsOfItsLines : Prop :=
  ∀ (l : LaunchArgs) (text : List Char) (s : State), launchText l text = .ok s ↔
    ∃ p : List Word, (textLines text).map loaderLine = p.map .ok
      ∧ launch { l with program := p } = .ok s
end

