-- ==== Sys2Proof/Laws/Datapath.lean ====
section
/-! SUPPORT. The laws of the DataMemory as a component and of a cycle's data access through it: an
enabled access is MemRead or MemWrite, and what the data stage answers for a load, a store and any
other word. -/

namespace Sys2Proof.Machine

/-- A read with its enable on is MemRead (R66). -/
theorem dataMemory_read {s : State} {p : MemPort} (h : p.readEnable = true) :
    dataMemory s .read p = match memRead s p.addr p.size with
      | .ok v => .ok (some v) s.dmem
      | .error reason => .fault reason := by
  cases hm : memRead s p.addr p.size <;> simp only [dataMemory, h, if_true, hm]

/-- A write with its enable on is MemWrite (R67). -/
theorem dataMemory_write {s : State} {p : MemPort} (h : p.writeEnable = true) :
    dataMemory s .write p = match memWrite s p.addr p.size p.wdata with
      | .ok mem => .ok none mem
      | .error reason => .fault reason := by
  cases hm : memWrite s p.addr p.size p.wdata <;> simp only [dataMemory, h, if_true, hm]

/-- A load reads by MemRead, extends, and leaves the DataMemory as it is (R65, R310). -/
theorem dataStage_load {s : State} {sig : ControlSignals} {size : AccessSize} {uns : Bool} (r v2 : Word)
    (hrw : sig.memRW = .read) (hsize : sig.loadStoreSize = some size) (huns : sig.loadUnsigned = some uns) :
    dataStage s 0x03 sig r v2 = match memRead s r size with
      | .ok m => .ok (extendLoad size uns m, s.dmem)
      | .error reason => .error reason := by
  simp only [dataStage, dataPort, hsize, hrw, BEq.rfl, Bool.true_or, if_true]
  rw [dataMemory_read rfl]
  cases memRead s r size <;> simp only [loadedValue, huns]

/-- A store writes by MemWrite (R65). -/
theorem dataStage_store {s : State} {sig : ControlSignals} {size : AccessSize} (op : BitVec 7) (r v2 : Word)
    (hrw : sig.memRW = .write) (hsize : sig.loadStoreSize = some size) :
    dataStage s op sig r v2 = match memWrite s r size v2 with
      | .ok mem => .ok (0, mem)
      | .error reason => .error reason := by
  simp only [dataStage, dataPort, hsize, hrw, BEq.rfl, Bool.or_true, if_true]
  rw [dataMemory_write rfl]
  cases memWrite s r size v2 <;> simp only [loadedValue]

/-- A word that is neither makes no access (R65). -/
theorem dataStage_none {s : State} {op : BitVec 7} {sig : ControlSignals} (r v2 : Word)
    (hop : op ≠ 0x03) (hrw : sig.memRW = .read) : dataStage s op sig r v2 = .ok (0, s.dmem) := by
  have hport : dataPort op sig r v2 = none := by
    simp only [dataPort, hrw, beq_eq_false_iff_ne.mpr hop]
    cases sig.loadStoreSize <;> rfl
  simp only [dataStage, hport]

end Sys2Proof.Machine
end

