-- ==== Sys2Proof/Laws/Decode.lean ====
section
/-! SUPPORT. The small laws of the encoding: register fields, and what a mask of R136 says of the
opcode and funct fields. -/

namespace Sys2Proof

@[simp] theorem regOf_regBits (r : RegIdx) : regOf (regBits r) = r := by
  apply Fin.ext
  have := r.isLt
  simp [regOf, regBits]

@[simp] theorem regBits_regOf (v : BitVec 5) : regBits (regOf v) = v := by
  apply BitVec.eq_of_toNat_eq
  have := v.isLt
  simp only [regOf, regBits, BitVec.toNat_ofNat, Fin.val_ofNat]
  omega

/-- A field of a word is a field of the masked word, where the mask covers the field. -/
theorem extractLsb'_of_and {w mask pattern : Word} (h : w &&& mask = pattern) (lo len : Nat)
    (hmask : mask.extractLsb' lo len = BitVec.allOnes len) :
    w.extractLsb' lo len = pattern.extractLsb' lo len := by
  rw [← h, BitVec.extractLsb'_and, hmask, BitVec.and_allOnes]

/-- The low field of a concatenation is its low part. -/
theorem extractLsb'_low {n k : Nat} (hi : BitVec n) (lo : BitVec k) :
    (hi ++ lo).extractLsb' 0 k = lo := by
  ext i h
  rw [BitVec.getElem_extractLsb', Nat.zero_add, BitVec.getLsbD_append]
  simp [h, BitVec.getLsbD_eq_getElem]

theorem opcodeOf_encodeR (f7 : BitVec 7) (rs2 rs1 : RegIdx) (f3 : BitVec 3) (rd : RegIdx)
    (op : BitVec 7) : opcodeOf (encodeR f7 rs2 rs1 f3 rd op) = op := extractLsb'_low _ op

theorem opcodeOf_encodeI (imm : BitVec 12) (rs1 : RegIdx) (f3 : BitVec 3) (rd : RegIdx)
    (op : BitVec 7) : opcodeOf (encodeI imm rs1 f3 rd op) = op := extractLsb'_low _ op

theorem opcodeOf_encodeShift (f7 : BitVec 7) (shamt : BitVec 5) (rs1 : RegIdx) (f3 : BitVec 3)
    (rd : RegIdx) (op : BitVec 7) : opcodeOf (encodeShift f7 shamt rs1 f3 rd op) = op :=
  extractLsb'_low _ op

theorem opcodeOf_encodeS (imm : BitVec 12) (rs2 rs1 : RegIdx) (f3 : BitVec 3) (op : BitVec 7) :
    opcodeOf (encodeS imm rs2 rs1 f3 op) = op := extractLsb'_low _ op

theorem opcodeOf_encodeSB (off : BitVec 13) (rs2 rs1 : RegIdx) (f3 : BitVec 3) (op : BitVec 7) :
    opcodeOf (encodeSB off rs2 rs1 f3 op) = op := extractLsb'_low _ op

theorem opcodeOf_encodeU (imm : BitVec 20) (rd : RegIdx) (op : BitVec 7) :
    opcodeOf (encodeU imm rd op) = op := extractLsb'_low _ op

theorem opcodeOf_encodeUJ (off : BitVec 21) (rd : RegIdx) (op : BitVec 7) :
    opcodeOf (encodeUJ off rd op) = op := extractLsb'_low _ op

/-- The opcode of a word that matches a row: every mask of R136 covers it. -/
theorem opcodeOf_of_and {w mask pattern : Word} (h : w &&& mask = pattern)
    (hmask : mask.extractLsb' 0 7 = BitVec.allOnes 7) : opcodeOf w = pattern.extractLsb' 0 7 :=
  extractLsb'_of_and h 0 7 hmask

/-- The funct3 of a word that matches a row whose mask covers it. -/
theorem funct3Of_of_and {w mask pattern : Word} (h : w &&& mask = pattern)
    (hmask : mask.extractLsb' 12 3 = BitVec.allOnes 3) : funct3Of w = pattern.extractLsb' 12 3 :=
  extractLsb'_of_and h 12 3 hmask

/-- The funct7 of a word that matches a row whose mask covers it. -/
theorem funct7Of_of_and {w mask pattern : Word} (h : w &&& mask = pattern)
    (hmask : mask.extractLsb' 25 7 = BitVec.allOnes 7) : funct7Of w = pattern.extractLsb' 25 7 :=
  extractLsb'_of_and h 25 7 hmask

end Sys2Proof
end

