-- ==== Sys2Proof/Laws/Memory.lean ====
section
/-! SUPPORT. The laws of a memory: what it reads as after a write, and that every operation keeps the
canonical form and the capacity. -/

namespace Sys2Proof.Machine

@[simp] theorem Memory.read_nil (a : Nat) : Memory.read [] a = blankByte := rfl

@[simp] theorem Memory.wf_nil : Memory.wf [] := by simp [Memory.wf]

@[simp] theorem Memory.within_nil (n : Nat) : Memory.within [] n := by simp [Memory.within]

theorem Memory.read_cons (k : Nat) (b : Byte) (rest : Memory) (a : Nat) :
    Memory.read ((k, b) :: rest) a = if k = a then b else Memory.read rest a := rfl

/-- Below every listed address a memory is blank. -/
theorem Memory.read_of_lt {m : Memory} {a : Nat} (h : ∀ c ∈ m, a < c.1) : m.read a = blankByte := by
  induction m with
  | nil => rfl
  | cons c rest ih =>
    have hc := h c (List.mem_cons_self ..)
    rw [Memory.read_cons, if_neg (by omega)]
    exact ih fun d hd => h d (List.mem_cons_of_mem _ hd)

theorem read_consCell {rest : Memory} {a : Nat} (b : Byte) (h : ∀ c ∈ rest, a < c.1) (x : Nat) :
    Memory.read (consCell a b rest) x = if a = x then b else Memory.read rest x := by
  unfold consCell
  split
  · next hb =>
    split
    · next hx => subst hx; rw [hb, Memory.read_of_lt h]
    · rfl
  · exact Memory.read_cons ..

/-- Read after write: the written address gives the byte, every other address what it gave before. -/
theorem Memory.read_write {m : Memory} (hm : m.wf) (a : Nat) (b : Byte) (x : Nat) :
    (m.write a b).read x = if a = x then b else m.read x := by
  induction m with
  | nil => exact read_consCell b (by simp) x
  | cons c rest ih =>
    obtain ⟨k, v⟩ := c
    have hlt : ∀ d ∈ rest, k < d.1 := (List.pairwise_cons.1 hm.1).1
    have hrest : Memory.wf rest :=
      ⟨(List.pairwise_cons.1 hm.1).2, fun d hd => hm.2 d (List.mem_cons_of_mem _ hd)⟩
    unfold Memory.write
    split
    · next hak =>
      refine read_consCell b (fun d hd => ?_) x
      rcases List.mem_cons.1 hd with rfl | hd
      · exact hak
      · exact Nat.lt_trans hak (hlt d hd)
    · split
      · next hak =>
        subst hak
        rw [read_consCell b hlt x, Memory.read_cons]
        split <;> rfl
      · next hne =>
        rw [Memory.read_cons, Memory.read_cons, ih hrest]
        by_cases hkx : k = x
        · rw [if_pos hkx, if_pos hkx, if_neg (by omega)]
        · rw [if_neg hkx, if_neg hkx]

/-- The addresses listed after a write. -/
theorem Memory.mem_write {m : Memory} {a : Nat} {b : Byte} {c : Host.Cell} (h : c ∈ m.write a b) :
    c = (a, b) ∧ b ≠ blankByte ∨ c ∈ m := by
  have hcons : ∀ rest : Memory, c ∈ consCell a b rest → c = (a, b) ∧ b ≠ blankByte ∨ c ∈ rest := by
    intro rest hc
    unfold consCell at hc
    split at hc
    · exact .inr hc
    · next hb =>
      rcases List.mem_cons.1 hc with rfl | hc
      · exact .inl ⟨rfl, hb⟩
      · exact .inr hc
  induction m with
  | nil => exact hcons [] h
  | cons d rest ih =>
    obtain ⟨k, v⟩ := d
    unfold Memory.write at h
    split at h
    · exact hcons _ h
    · split at h
      · exact (hcons _ h).imp_right (List.mem_cons_of_mem _)
      · rcases List.mem_cons.1 h with rfl | h
        · exact .inr (List.mem_cons_self ..)
        · exact (ih h).imp_right (List.mem_cons_of_mem _)

/-- A write keeps the canonical form. -/
theorem Memory.wf_write {m : Memory} (hm : m.wf) (a : Nat) (b : Byte) : (m.write a b).wf := by
  refine ⟨?_, fun c hc => ?_⟩
  · have hcons : ∀ rest : Memory, rest.Pairwise (fun c d => c.1 < d.1) → (∀ c ∈ rest, a < c.1) →
        (consCell a b rest).Pairwise (fun c d => c.1 < d.1) := by
      intro rest hp hlt
      unfold consCell
      split
      · exact hp
      · exact List.pairwise_cons.2 ⟨hlt, hp⟩
    induction m with
    | nil => exact hcons [] List.Pairwise.nil (by simp)
    | cons d rest ih =>
      obtain ⟨k, v⟩ := d
      have hp := List.pairwise_cons.1 hm.1
      have hrest : Memory.wf rest := ⟨hp.2, fun d hd => hm.2 d (List.mem_cons_of_mem _ hd)⟩
      unfold Memory.write
      split
      · next hak =>
        refine hcons _ hm.1 fun d hd => ?_
        rcases List.mem_cons.1 hd with rfl | hd
        · exact hak
        · exact Nat.lt_trans hak (hp.1 d hd)
      · split
        · next hak => subst hak; exact hcons _ hp.2 hp.1
        · next hlt hne =>
          refine List.pairwise_cons.2 ⟨fun d hd => ?_, ih hrest⟩
          rcases Memory.mem_write hd with ⟨rfl, _⟩ | hd
          · show k < a
            omega
          · exact hp.1 d hd
  · rcases Memory.mem_write hc with ⟨rfl, hb⟩ | hc
    · exact hb
    · exact hm.2 c hc

/-- A write below the capacity keeps the memory within it. -/
theorem Memory.within_write {m : Memory} {n : Nat} (hm : m.within n) {a : Nat} (ha : a < n)
    (b : Byte) : (m.write a b).within n := by
  intro c hc
  rcases Memory.mem_write hc with ⟨rfl, _⟩ | hc
  · exact ha
  · exact hm c hc

/-- A little-endian store keeps the canonical form. -/
theorem Memory.wf_writeLE {m : Memory} (hm : m.wf) (a : Nat) (v : Word) (n : Nat) :
    (m.writeLE a v n).wf := by
  induction n with
  | zero => exact hm
  | succ n ih => exact Memory.wf_write ih _ _

/-- A little-endian store within the capacity keeps the memory within it. -/
theorem Memory.within_writeLE {m : Memory} {cap : Nat} (hm : m.within cap) {a : Nat} (v : Word)
    {n : Nat} (ha : a + n ≤ cap) : (m.writeLE a v n).within cap := by
  induction n with
  | zero => exact hm
  | succ n ih => exact Memory.within_write (ih (by omega)) (by omega) _

/-- What each byte reads as after a little-endian store of `n` bytes (R61, R67). -/
theorem Memory.read_writeLE {m : Memory} (hm : m.wf) (a : Nat) (v : Word) (n x : Nat) :
    (m.writeLE a v n).read x =
      if a ≤ x ∧ x < a + n then byteOf v (x - a) else m.read x := by
  induction n with
  | zero => rw [if_neg (by omega)]; rfl
  | succ n ih =>
    unfold Memory.writeLE
    rw [Memory.read_write (Memory.wf_writeLE hm a v n), ih]
    by_cases hx : a + n = x
    · rw [if_pos hx, if_pos (by omega)]
      congr 1
      omega
    · rw [if_neg hx]
      by_cases hin : a ≤ x ∧ x < a + n
      · rw [if_pos hin, if_pos (by omega)]
      · rw [if_neg hin, if_neg (by omega)]

/-- A little-endian read depends on the bytes it covers only. -/
theorem Memory.readLE_congr {m m' : Memory} {a : Nat} {size : AccessSize}
    (h : ∀ k, k < size.bytes → m.read (a + k) = m'.read (a + k)) : m.readLE a size = m'.readLE a size := by
  cases size
  · simpa [Memory.readLE] using congrArg (BitVec.setWidth 32) (h 0 (by decide))
  · have h0 := h 0 (by decide)
    have h1 := h 1 (by decide)
    simp only [Nat.add_zero] at h0
    simp [Memory.readLE, h0, h1]
  · have h0 := h 0 (by decide)
    have h1 := h 1 (by decide)
    have h2 := h 2 (by decide)
    have h3 := h 3 (by decide)
    simp only [Nat.add_zero] at h0
    simp [Memory.readLE, h0, h1, h2, h3]

/-- The four bytes of a Word, put together again. -/
theorem bytes_append (v : Word) : byteOf v 3 ++ byteOf v 2 ++ byteOf v 1 ++ byteOf v 0 = v := by
  unfold byteOf
  ext i hi
  simp only [BitVec.getElem_append, BitVec.getElem_extractLsb']
  split
  · simp [BitVec.getLsbD_eq_getElem hi]
  · split
    · rw [show 8 * 1 + (i - 8) = i by omega, BitVec.getLsbD_eq_getElem hi]
    · split
      · rw [show 8 * 2 + (i - 8 - 8) = i by omega, BitVec.getLsbD_eq_getElem hi]
      · rw [show 8 * 3 + (i - 8 - 8 - 8) = i by omega, BitVec.getLsbD_eq_getElem hi]

/-- A word read gives the word whose four bytes stand there (R61, R70). -/
theorem Memory.readLE_word {m : Memory} {a : Nat} {w : Word}
    (h : ∀ k, k < 4 → m.read (a + k) = byteOf w k) : m.readLE a .word = w := by
  have h0 := h 0 (by decide)
  simp only [Nat.add_zero] at h0
  rw [← bytes_append w]
  simp [Memory.readLE, h0, h 1, h 2, h 3]

/-- Each byte of a word that is read is the byte at its address (R61). -/
theorem byteOf_readLE_word (m : Memory) (a : Nat) {k : Nat} (hk : k < 4) :
    byteOf (m.readLE a .word) k = m.read (a + k) := by
  unfold byteOf Memory.readLE
  ext i hi
  rw [BitVec.getElem_extractLsb', BitVec.getLsbD_append, BitVec.getLsbD_append,
    BitVec.getLsbD_append, ← BitVec.getLsbD_eq_getElem hi]
  obtain rfl | rfl | rfl | rfl : k = 0 ∨ k = 1 ∨ k = 2 ∨ k = 3 := by omega
  · rw [if_pos (by omega)]
    simp
  · rw [if_neg (by omega), if_pos (by omega)]
    congr 1
    omega
  · rw [if_neg (by omega), if_neg (by omega), if_pos (by omega)]
    congr 1
    omega
  · rw [if_neg (by omega), if_neg (by omega), if_neg (by omega)]
    congr 1
    omega

/-- Which of the two address faults an access raises, if any (R62 to R64). -/
theorem addrFault_eq_none {words : Nat} {addr : Word} {n : Nat} :
    addrFault words addr n = none ↔ aligned4 addr ∧ addr.toNat + n ≤ 4 * words := by
  unfold addrFault
  split
  · next h => simp [h]
  · next h =>
    split
    · next h' => simp; omega
    · next h' => simp; omega

end Sys2Proof.Machine
end

