-- ==== Sys2Proof/Laws/Launch.lean ====
section
/-! SUPPORT. The laws of the launch: loading a program and preloading bytes keep the canonical form and
the capacity, and what each byte reads as afterwards. -/

namespace Sys2Proof.Machine

/-- The memory after a reset is in canonical form. -/
theorem reset_memories_wf : State.reset.imem.wf ∧ State.reset.dmem.wf :=
  ⟨Memory.wf_nil, Memory.wf_nil⟩

/-- Loading a program keeps the canonical form. -/
theorem loadProgram_wf (p : List Word) {m : Memory} (hm : m.wf) (a : Nat) : (loadProgram m a p).wf := by
  induction p generalizing m a with
  | nil => exact hm
  | cons w rest ih => exact ih (Memory.wf_writeLE hm ..) _

/-- Loading a program within the capacity keeps the memory within it. -/
theorem loadProgram_within (p : List Word) {m : Memory} {cap : Nat} (hm : m.within cap) (a : Nat)
    (h : a + 4 * p.length ≤ cap) : (loadProgram m a p).within cap := by
  induction p generalizing m a with
  | nil => exact hm
  | cons w rest ih =>
    rw [List.length_cons] at h
    exact ih (Memory.within_writeLE hm w (by omega)) _ (by omega)

/-- Loading a program changes no byte below it or above it. -/
theorem loadProgram_read_outside (p : List Word) {m : Memory} (hm : m.wf) (a x : Nat)
    (h : x < a ∨ a + 4 * p.length ≤ x) : (loadProgram m a p).read x = m.read x := by
  induction p generalizing m a with
  | nil => rfl
  | cons w rest ih =>
    rw [List.length_cons] at h
    unfold loadProgram
    rw [ih (Memory.wf_writeLE hm ..) _ (by omega), Memory.read_writeLE hm, if_neg (by omega)]

/-- Byte `k` of word `i` of a loaded program stands at `a + 4i + k` (R452). -/
theorem loadProgram_read (p : List Word) {m : Memory} (hm : m.wf) (a i k : Nat) (hi : i < p.length)
    (hk : k < 4) : (loadProgram m a p).read (a + 4 * i + k) = byteOf p[i] k := by
  induction p generalizing m a i with
  | nil => simp at hi
  | cons w rest ih =>
    unfold loadProgram
    cases i with
    | zero =>
      rw [loadProgram_read_outside _ (Memory.wf_writeLE hm ..) _ _ (by omega), Memory.read_writeLE hm,
        if_pos (by omega)]
      simp
    | succ i =>
      rw [show a + 4 * (i + 1) + k = a + 4 + 4 * i + k by omega,
        ih (Memory.wf_writeLE hm ..) _ i (by simpa using hi)]
      simp

/-- Preloading bytes keeps the canonical form. -/
theorem preloadBytes_wf (d : List Host.Cell) {m : Memory} (hm : m.wf) : (preloadBytes m d).wf := by
  induction d generalizing m with
  | nil => exact hm
  | cons c rest ih => exact ih (Memory.wf_write hm ..)

/-- Preloading bytes below the capacity keeps the memory within it. -/
theorem preloadBytes_within (d : List Host.Cell) {m : Memory} {cap : Nat} (hm : m.within cap)
    (h : ∀ c ∈ d, c.1 < cap) : (preloadBytes m d).within cap := by
  induction d generalizing m with
  | nil => exact hm
  | cons c rest ih =>
    exact ih (Memory.within_write hm (h c (List.mem_cons_self ..)) c.2)
      fun e he => h e (List.mem_cons_of_mem _ he)

/-- A byte that is not preloaded reads as before. -/
theorem preloadBytes_read_outside (d : List Host.Cell) {m : Memory} (hm : m.wf) {a : Nat}
    (h : a ∉ d.map (·.1)) : (preloadBytes m d).read a = m.read a := by
  induction d generalizing m with
  | nil => rfl
  | cons c rest ih =>
    rw [List.map_cons, List.mem_cons, not_or] at h
    obtain ⟨x, b⟩ := c
    unfold preloadBytes
    rw [ih (Memory.wf_write hm ..) h.2, Memory.read_write hm, if_neg (Ne.symm h.1)]

/-- A byte that is preloaded once reads as its value. -/
theorem preloadBytes_read (d : List Host.Cell) {m : Memory} (hm : m.wf) (hd : (d.map (·.1)).Nodup)
    {c : Host.Cell} (hc : c ∈ d) : (preloadBytes m d).read c.1 = c.2 := by
  induction d generalizing m with
  | nil => simp at hc
  | cons e rest ih =>
    rw [List.map_cons, List.nodup_cons] at hd
    obtain ⟨x, b⟩ := e
    unfold preloadBytes
    rcases List.mem_cons.1 hc with rfl | hc
    · rw [preloadBytes_read_outside rest (Memory.wf_write hm ..) hd.1, Memory.read_write hm, if_pos rfl]
    · exact ih (Memory.wf_write hm ..) hd.2 hc

/-- What a launch that succeeds had, and the state it gives (R452). -/
theorem launch_eq_ok {l : LaunchArgs} {s : State} (h : launch l = .ok s) :
    l.cfg.ok ∧ l.program.length ≤ l.cfg.imemWords ∧ (∀ c ∈ l.data, c.1 < 4 * l.cfg.dmemWords) ∧
      s = { regs := l.regs.set 0 0, pc := l.cfg.resetPc, imem := loadProgram [] 0 l.program,
            dmem := preloadBytes [] l.data, status := .running, cfg := l.cfg } := by
  unfold launch at h
  split at h
  · cases h
  · next hcfg =>
    split at h
    · cases h
    · next hlen =>
      split at h
      · cases h
      · next hdata =>
        cases h
        refine ⟨not_not.1 hcfg, by omega, fun c hc => ?_, rfl⟩
        simp only [List.any_eq_true, decide_eq_true_eq, not_exists, not_and] at hdata
        exact Nat.lt_of_not_le (hdata c hc)

end Sys2Proof.Machine
end

