-- ==== Sys2Proof/Laws/MachineCode.lean ====
section
/-! SUPPORT. The laws of machine-code text: how lines split, what a written word reads as, and what a
launch from a text is. -/

namespace Sys2Proof.Machine

/-- A line ended by a line feed is the text's first line. -/
theorem textLines_line {line : List Char} (h : '\n' ∉ line) (rest : List Char) :
    textLines (line ++ '\n' :: rest) = line :: textLines rest := by
  induction line with
  | nil => simp [textLines]
  | cons c cs ih =>
    obtain ⟨hc, hcs⟩ := not_or.mp (List.mem_cons.not.mp h)
    rw [List.cons_append, textLines, if_neg (Ne.symm hc), ih hcs]

/-- The value of the digit written for a number below 16. -/
theorem digitValue_digitChar {n : Nat} (h : n < 16) : digitValue 16 (Nat.digitChar n) = some n := by
  have all : ∀ m : Fin 16, digitValue 16 (Nat.digitChar m) = some m.val := by decide
  exact all ⟨n, h⟩

/-- The value of a written hex digit, read on from `acc`. -/
theorem digitsValue_digitChar {n : Nat} (h : n < 16) (cs : List Char) (acc : Nat) :
    digitsValue 16 (Nat.digitChar n :: cs) acc = digitsValue 16 cs (acc * 16 + n) := by
  rw [digitsValue, digitValue_digitChar h]

/-- The digit written for a number below 16 ends no line. -/
theorem digitChar_ne_lineFeed {n : Nat} (h : n < 16) : '\n' ≠ Nat.digitChar n := by
  have all : ∀ m : Fin 16, '\n' ≠ Nat.digitChar m := by decide
  exact all ⟨n, h⟩

/-- A written word holds no line feed. -/
theorem lineFeed_not_mem_wordText (w : Word) : '\n' ∉ wordText w := by
  have digit (k : Nat) : '\n' ≠ Nat.digitChar (w.toNat / 16 ^ k % 16) :=
    digitChar_ne_lineFeed (Nat.mod_lt _ (by decide))
  simp only [wordText, List.map_cons, List.map_nil, List.mem_cons, List.not_mem_nil, digit, or_false,
    Char.reduceEq, not_false_eq_true]

/-- The literal that a word is written as is the word's value. -/
theorem parseLiteral_wordText (w : Word) : parseLiteral (wordText w) = some (w.toNat : Int) := by
  have digit (k : Nat) := @digitsValue_digitChar (w.toNat / 16 ^ k % 16) (Nat.mod_lt _ (by decide))
  have hw := w.isLt
  simp only [wordText, parseLiteral, parseNat, List.map_cons, List.map_nil, List.isEmpty_cons,
    Bool.false_eq_true, if_false, digit]
  simp only [digitsValue, Option.map_some, Option.some.injEq, Int.ofNat_eq_natCast]
  omega

/-- The loader reads a written word back. -/
theorem loaderLine_wordText (w : Word) : loaderLine (wordText w) = .ok w := by
  have hw := w.isLt
  rw [loaderLine, parseLiteral_wordText]
  · simp only [loaderWord, if_pos (show 0 ≤ (w.toNat : Int) ∧ (w.toNat : Int) < 2 ^ 32 by omega)]
    simp
  · intro cs h
    simp [wordText] at h

/-- Lines give the words that each of them gives, or a fault. -/
theorem loaderWords_eq_ok {lines : List (List Char)} {p : List Word} :
    loaderWords lines = .ok p ↔ lines.map loaderLine = p.map .ok := by
  induction lines generalizing p with
  | nil => cases p <;> simp [loaderWords]
  | cons line rest ih =>
    unfold loaderWords
    cases hl : loaderLine line with
    | error f => cases p <;> simp [hl, bind, Except.bind]
    | ok w =>
      cases hr : loaderWords rest with
      | error f =>
        cases p with
        | nil => simp [bind, Except.bind]
        | cons v q =>
          have := (@ih q).not.mp (by simp [hr])
          simp [hl, bind, Except.bind, this]
      | ok q => cases p <;> simp [hl, bind, Except.bind, pure, Except.pure, ← ih, hr]

/-- When the launch of a list of words gives a state. -/
theorem launchProgram_eq_ok {l : LaunchArgs} {p : List Word} {s : State} :
    launchProgram l p = .ok s ↔ launch { l with program := p } = .ok s := by
  unfold launchProgram
  split <;> simp_all

end Sys2Proof.Machine
end

