-- ==== Sys2Proof/Laws/State.lean ====
section
/-! SUPPORT. One lemma per field per named update of State, and what a register reads as after each
update, so that no later proof unfolds a record update. -/

namespace Sys2Proof.Machine

variable (s : State) (rd r : RegIdx) (v w : Word) (m : Memory) (reason : FaultReason) (n k : Nat)

/-! ## setPc -/

@[simp] theorem State.setPc_regs : (s.setPc w).regs = s.regs := rfl
@[simp] theorem State.setPc_pc : (s.setPc w).pc = w := rfl
@[simp] theorem State.setPc_imem : (s.setPc w).imem = s.imem := rfl
@[simp] theorem State.setPc_dmem : (s.setPc w).dmem = s.dmem := rfl
@[simp] theorem State.setPc_status : (s.setPc w).status = s.status := rfl
@[simp] theorem State.setPc_cfg : (s.setPc w).cfg = s.cfg := rfl
@[simp] theorem State.setPc_getReg : (s.setPc w).getReg r = s.getReg r := rfl

/-! ## raise -/

@[simp] theorem State.raise_regs : (s.raise reason).regs = s.regs := rfl
@[simp] theorem State.raise_pc : (s.raise reason).pc = s.pc := rfl
@[simp] theorem State.raise_imem : (s.raise reason).imem = s.imem := rfl
@[simp] theorem State.raise_dmem : (s.raise reason).dmem = s.dmem := rfl
@[simp] theorem State.raise_status : (s.raise reason).status = .faulted reason := rfl
@[simp] theorem State.raise_cfg : (s.raise reason).cfg = s.cfg := rfl
@[simp] theorem State.raise_getReg : (s.raise reason).getReg r = s.getReg r := rfl

/-! ## The DataMemory -/

@[simp] theorem State.dmem_getReg : ({ s with dmem := m } : State).getReg r = s.getReg r := rfl

/-! ## setReg -/

/-- A write to x0 has no effect (R31). -/
@[simp] theorem State.setReg_zero : s.setReg 0 v = s := rfl

@[simp] theorem State.setReg_pc : (s.setReg rd v).pc = s.pc := by unfold State.setReg; split <;> rfl
@[simp] theorem State.setReg_imem : (s.setReg rd v).imem = s.imem := by
  unfold State.setReg; split <;> rfl
@[simp] theorem State.setReg_dmem : (s.setReg rd v).dmem = s.dmem := by
  unfold State.setReg; split <;> rfl
@[simp] theorem State.setReg_status : (s.setReg rd v).status = s.status := by
  unfold State.setReg; split <;> rfl
@[simp] theorem State.setReg_cfg : (s.setReg rd v).cfg = s.cfg := by
  unfold State.setReg; split <;> rfl

/-- x0 reads as 0 (R31). -/
@[simp] theorem State.getReg_zero : s.getReg 0 = 0 := rfl

/-- What a register reads as after a write (R31, R32). -/
theorem State.getReg_setReg :
    (s.setReg rd v).getReg r = if r = rd ∧ r ≠ 0 then v else s.getReg r := by
  by_cases h0 : rd = 0
  · subst h0
    by_cases hr : r = 0 <;> simp [hr]
  · by_cases hr : r = 0
    · simp [hr]
    · by_cases he : r = rd
      · subst he; simp [State.setReg, State.getReg, h0]
      · have : ¬ rd.val = r.val := fun h => he (Fin.ext h).symm
        simp [State.setReg, State.getReg, h0, hr, he, this]

/-- No write reaches x0's slot. -/
@[simp] theorem State.setReg_slot_zero : (s.setReg rd v).regs[0] = s.regs[0] := by
  unfold State.setReg
  split
  · rfl
  · next h =>
    have : ¬ rd.val = 0 := fun h' => h (Fin.ext h')
    simp [this]

/-! ## withFetchWord -/

@[simp] theorem State.withFetchWord_regs : (s.withFetchWord n k).regs = s.regs := rfl
@[simp] theorem State.withFetchWord_pc : (s.withFetchWord n k).pc = s.pc := rfl
@[simp] theorem State.withFetchWord_dmem : (s.withFetchWord n k).dmem = s.dmem := rfl
@[simp] theorem State.withFetchWord_status : (s.withFetchWord n k).status = s.status := rfl
@[simp] theorem State.withFetchWord_cfg : (s.withFetchWord n k).cfg = s.cfg := rfl
@[simp] theorem State.withFetchWord_getReg : (s.withFetchWord n k).getReg r = s.getReg r := rfl

end Sys2Proof.Machine
end

