-- ==== Sys2Proof/Laws/Ops.lean ====
section
/-! SUPPORT. One lemma per shared operation that says once everything it can do, and the inversion of
`exec`: an instruction either raises a fault or commits. -/

namespace Sys2Proof.Machine

/-- The three cases of a data access's check (R62 to R64). -/
theorem dataFault_cases (s : State) (ea : Word) (size : AccessSize) :
    (¬ aligned4 ea ∧ dataFault s ea size = some (.dataMisaligned ea)) ∨
    (aligned4 ea ∧ ea.toNat + size.bytes > 4 * s.cfg.dmemWords ∧
      dataFault s ea size = some (.dataOutOfRange ea)) ∨
    (aligned4 ea ∧ ea.toNat + size.bytes ≤ 4 * s.cfg.dmemWords ∧ dataFault s ea size = none) := by
  unfold dataFault addrFault
  by_cases h1 : aligned4 ea
  · by_cases h2 : ea.toNat + size.bytes > 4 * s.cfg.dmemWords
    · exact .inr (.inl ⟨h1, h2, by rw [if_neg (not_not.2 h1), if_pos h2]⟩)
    · exact .inr (.inr ⟨h1, by omega, by rw [if_neg (not_not.2 h1), if_neg h2]⟩)
  · exact .inl ⟨h1, by rw [if_pos h1]⟩

/-- A data access faults on no other ground than its address. -/
theorem dataFault_eq_none {s : State} {ea : Word} {size : AccessSize} :
    dataFault s ea size = none ↔ aligned4 ea ∧ ea.toNat + size.bytes ≤ 4 * s.cfg.dmemWords := by
  rcases dataFault_cases s ea size with ⟨h, he⟩ | ⟨h, h', he⟩ | ⟨h, h', he⟩ 
  · simp [he, h]
  · simp only [he, reduceCtorEq, false_iff]; omega
  · simp only [he, true_iff]; exact ⟨h, h'⟩

/-- The three cases of a fetch (R70). -/
theorem fetch_cases (s : State) :
    (¬ aligned4 s.pc ∧ fetch s = .error (.fetchMisaligned s.pc)) ∨
    (aligned4 s.pc ∧ s.pc.toNat + 4 > 4 * s.cfg.imemWords ∧ fetch s = .error (.fetchOutOfRange s.pc)) ∨
    (aligned4 s.pc ∧ s.pc.toNat + 4 ≤ 4 * s.cfg.imemWords ∧
      fetch s = .ok (s.imem.readLE s.pc.toNat .word)) := by
  unfold fetch addrFault
  by_cases h1 : aligned4 s.pc
  · by_cases h2 : s.pc.toNat + 4 > 4 * s.cfg.imemWords
    · exact .inr (.inl ⟨h1, h2, by rw [if_neg (not_not.2 h1), if_pos h2]⟩)
    · exact .inr (.inr ⟨h1, by omega, by rw [if_neg (not_not.2 h1), if_neg h2]⟩)
  · exact .inl ⟨h1, by rw [if_pos h1]⟩

/-- Everything `exec` can answer: the Faulted successor state with a data or target fault, or a commit
of at most one register, the bytes of one good data access, and the PC. -/
inductive Outcomes (s : State) : State → Prop
  | misalignedData (ea : Word) : ¬ aligned4 ea → Outcomes s (s.raise (.dataMisaligned ea))
  | dataRange (ea : Word) (n : Nat) : aligned4 ea → ea.toNat + n > 4 * s.cfg.dmemWords →
      Outcomes s (s.raise (.dataOutOfRange ea))
  | target (t : Word) : ¬ aligned4 t → Outcomes s (s.raise (.targetMisaligned t))
  | seq (rd : RegIdx) (v : Word) : Outcomes s ((s.setReg rd v).setPc s.pcPlus4)
  | jump (rd : RegIdx) (v t : Word) : aligned4 t → Outcomes s ((s.setReg rd v).setPc t)
  | store (ea v : Word) (size : AccessSize) : aligned4 ea →
      ea.toNat + size.bytes ≤ 4 * s.cfg.dmemWords →
      Outcomes s ({ s with dmem := s.dmem.writeLE ea.toNat v size.bytes }.setPc s.pcPlus4)

theorem commitReg_outcome (rd : RegIdx) (v : Word) (s : State) :
    ∃ t, commitReg rd v s = .next t ∧ Outcomes s t := ⟨_, rfl, .seq rd v⟩

theorem commitJump_outcome (rd : RegIdx) (target : Word) (s : State) :
    ∃ t, commitJump rd target s = .next t ∧ Outcomes s t := by
  unfold commitJump
  split
  · next h => exact ⟨_, rfl, .jump rd _ target h⟩
  · next h => exact ⟨_, rfl, .target target h⟩

theorem commitBranch_outcome (taken : Bool) (off : BitVec 13) (s : State) :
    ∃ t, commitBranch taken off s = .next t ∧ Outcomes s t := by
  simp only [commitBranch]
  split
  · split
    · next h => exact ⟨_, rfl, by simpa using Outcomes.jump (s := s) 0 0 _ h⟩
    · next h => exact ⟨_, rfl, .target _ h⟩
  · exact ⟨_, rfl, by simpa using Outcomes.seq (s := s) 0 0⟩

theorem commitLoad_outcome (rd : RegIdx) (ea : Word) (size : AccessSize) (uns : Bool) (s : State) :
    ∃ t, commitLoad rd ea size uns s = .next t ∧ Outcomes s t := by
  unfold commitLoad memRead
  rcases dataFault_cases s ea size with ⟨h, he⟩ | ⟨h, h', he⟩ | ⟨h, h', he⟩ <;> rw [he]
  · exact ⟨_, rfl, .misalignedData ea h⟩
  · exact ⟨_, rfl, .dataRange ea _ h h'⟩
  · exact ⟨_, rfl, .seq rd _⟩

theorem commitStore_outcome (ea : Word) (size : AccessSize) (v : Word) (s : State) :
    ∃ t, commitStore ea size v s = .next t ∧ Outcomes s t := by
  unfold commitStore memWrite
  rcases dataFault_cases s ea size with ⟨h, he⟩ | ⟨h, h', he⟩ | ⟨h, h', he⟩ <;> rw [he]
  · exact ⟨_, rfl, .misalignedData ea h⟩
  · exact ⟨_, rfl, .dataRange ea _ h h'⟩
  · exact ⟨_, rfl, .store ea v size h h'⟩

/-- The inversion of `exec`: one of the outcomes above, and never a stop. -/
theorem exec_outcome (i : Instr) (s : State) : ∃ t, exec i s = .next t ∧ Outcomes s t := by
  cases i with
  | add _ _ _ => exact commitReg_outcome ..
  | sub _ _ _ => exact commitReg_outcome ..
  | sll _ _ _ => exact commitReg_outcome ..
  | slt _ _ _ => exact commitReg_outcome ..
  | sltu _ _ _ => exact commitReg_outcome ..
  | xor _ _ _ => exact commitReg_outcome ..
  | srl _ _ _ => exact commitReg_outcome ..
  | sra _ _ _ => exact commitReg_outcome ..
  | or _ _ _ => exact commitReg_outcome ..
  | and _ _ _ => exact commitReg_outcome ..
  | addi _ _ _ => exact commitReg_outcome ..
  | slti _ _ _ => exact commitReg_outcome ..
  | sltiu _ _ _ => exact commitReg_outcome ..
  | xori _ _ _ => exact commitReg_outcome ..
  | ori _ _ _ => exact commitReg_outcome ..
  | andi _ _ _ => exact commitReg_outcome ..
  | slli _ _ _ => exact commitReg_outcome ..
  | srli _ _ _ => exact commitReg_outcome ..
  | srai _ _ _ => exact commitReg_outcome ..
  | lui _ _ => exact commitReg_outcome ..
  | auipc _ _ => exact commitReg_outcome ..
  | jal _ _ => exact commitJump_outcome ..
  | jalr _ _ _ => exact commitJump_outcome ..
  | beq _ _ _ => exact commitBranch_outcome ..
  | bne _ _ _ => exact commitBranch_outcome ..
  | blt _ _ _ => exact commitBranch_outcome ..
  | bge _ _ _ => exact commitBranch_outcome ..
  | bltu _ _ _ => exact commitBranch_outcome ..
  | bgeu _ _ _ => exact commitBranch_outcome ..
  | lb _ _ _ => exact commitLoad_outcome ..
  | lh _ _ _ => exact commitLoad_outcome ..
  | lw _ _ _ => exact commitLoad_outcome ..
  | lbu _ _ _ => exact commitLoad_outcome ..
  | lhu _ _ _ => exact commitLoad_outcome ..
  | sb _ _ _ => exact commitStore_outcome ..
  | sh _ _ _ => exact commitStore_outcome ..
  | sw _ _ _ => exact commitStore_outcome ..

end Sys2Proof.Machine
end

