-- ==== Sys2Proof/Laws/PerInstr.lean ====
section
/-! SUPPORT. The family OpcodeField: the low seven bits of every encoded instruction are the opcode of
its row (spec/30_encoding.md R101, R121). -/

namespace Sys2Proof.Laws.OpcodeField

/-- The statement of the family. -/
def Statement (i : Instr) : Prop := opcodeOf (encode i) = opcodeOf i.row.pattern

theorem add (rd rs1 rs2) : Statement (.add rd rs1 rs2) := by
  simp only [Statement, encode, Instr.row, opcodeOf_encodeR]; decide
theorem sub (rd rs1 rs2) : Statement (.sub rd rs1 rs2) := by
  simp only [Statement, encode, Instr.row, opcodeOf_encodeR]; decide
theorem sll (rd rs1 rs2) : Statement (.sll rd rs1 rs2) := by
  simp only [Statement, encode, Instr.row, opcodeOf_encodeR]; decide
theorem slt (rd rs1 rs2) : Statement (.slt rd rs1 rs2) := by
  simp only [Statement, encode, Instr.row, opcodeOf_encodeR]; decide
theorem sltu (rd rs1 rs2) : Statement (.sltu rd rs1 rs2) := by
  simp only [Statement, encode, Instr.row, opcodeOf_encodeR]; decide
theorem xor (rd rs1 rs2) : Statement (.xor rd rs1 rs2) := by
  simp only [Statement, encode, Instr.row, opcodeOf_encodeR]; decide
theorem srl (rd rs1 rs2) : Statement (.srl rd rs1 rs2) := by
  simp only [Statement, encode, Instr.row, opcodeOf_encodeR]; decide
theorem sra (rd rs1 rs2) : Statement (.sra rd rs1 rs2) := by
  simp only [Statement, encode, Instr.row, opcodeOf_encodeR]; decide
theorem or (rd rs1 rs2) : Statement (.or rd rs1 rs2) := by
  simp only [Statement, encode, Instr.row, opcodeOf_encodeR]; decide
theorem and (rd rs1 rs2) : Statement (.and rd rs1 rs2) := by
  simp only [Statement, encode, Instr.row, opcodeOf_encodeR]; decide
theorem addi (rd rs1 imm) : Statement (.addi rd rs1 imm) := by
  simp only [Statement, encode, Instr.row, opcodeOf_encodeI]; decide
theorem slti (rd rs1 imm) : Statement (.slti rd rs1 imm) := by
  simp only [Statement, encode, Instr.row, opcodeOf_encodeI]; decide
theorem sltiu (rd rs1 imm) : Statement (.sltiu rd rs1 imm) := by
  simp only [Statement, encode, Instr.row, opcodeOf_encodeI]; decide
theorem xori (rd rs1 imm) : Statement (.xori rd rs1 imm) := by
  simp only [Statement, encode, Instr.row, opcodeOf_encodeI]; decide
theorem ori (rd rs1 imm) : Statement (.ori rd rs1 imm) := by
  simp only [Statement, encode, Instr.row, opcodeOf_encodeI]; decide
theorem andi (rd rs1 imm) : Statement (.andi rd rs1 imm) := by
  simp only [Statement, encode, Instr.row, opcodeOf_encodeI]; decide
theorem slli (rd rs1 shamt) : Statement (.slli rd rs1 shamt) := by
  simp only [Statement, encode, Instr.row, opcodeOf_encodeShift]; decide
theorem srli (rd rs1 shamt) : Statement (.srli rd rs1 shamt) := by
  simp only [Statement, encode, Instr.row, opcodeOf_encodeShift]; decide
theorem srai (rd rs1 shamt) : Statement (.srai rd rs1 shamt) := by
  simp only [Statement, encode, Instr.row, opcodeOf_encodeShift]; decide
theorem lui (rd imm) : Statement (.lui rd imm) := by
  simp only [Statement, encode, Instr.row, opcodeOf_encodeU]; decide
theorem auipc (rd imm) : Statement (.auipc rd imm) := by
  simp only [Statement, encode, Instr.row, opcodeOf_encodeU]; decide
theorem jal (rd off) : Statement (.jal rd off) := by
  simp only [Statement, encode, Instr.row, opcodeOf_encodeUJ]; decide
theorem jalr (rd rs1 imm) : Statement (.jalr rd rs1 imm) := by
  simp only [Statement, encode, Instr.row, opcodeOf_encodeI]; decide
theorem beq (rs1 rs2 off) : Statement (.beq rs1 rs2 off) := by
  simp only [Statement, encode, Instr.row, opcodeOf_encodeSB]; decide
theorem bne (rs1 rs2 off) : Statement (.bne rs1 rs2 off) := by
  simp only [Statement, encode, Instr.row, opcodeOf_encodeSB]; decide
theorem blt (rs1 rs2 off) : Statement (.blt rs1 rs2 off) := by
  simp only [Statement, encode, Instr.row, opcodeOf_encodeSB]; decide
theorem bge (rs1 rs2 off) : Statement (.bge rs1 rs2 off) := by
  simp only [Statement, encode, Instr.row, opcodeOf_encodeSB]; decide
theorem bltu (rs1 rs2 off) : Statement (.bltu rs1 rs2 off) := by
  simp only [Statement, encode, Instr.row, opcodeOf_encodeSB]; decide
theorem bgeu (rs1 rs2 off) : Statement (.bgeu rs1 rs2 off) := by
  simp only [Statement, encode, Instr.row, opcodeOf_encodeSB]; decide
theorem lb (rd rs1 imm) : Statement (.lb rd rs1 imm) := by
  simp only [Statement, encode, Instr.row, opcodeOf_encodeI]; decide
theorem lh (rd rs1 imm) : Statement (.lh rd rs1 imm) := by
  simp only [Statement, encode, Instr.row, opcodeOf_encodeI]; decide
theorem lw (rd rs1 imm) : Statement (.lw rd rs1 imm) := by
  simp only [Statement, encode, Instr.row, opcodeOf_encodeI]; decide
theorem lbu (rd rs1 imm) : Statement (.lbu rd rs1 imm) := by
  simp only [Statement, encode, Instr.row, opcodeOf_encodeI]; decide
theorem lhu (rd rs1 imm) : Statement (.lhu rd rs1 imm) := by
  simp only [Statement, encode, Instr.row, opcodeOf_encodeI]; decide
theorem sb (rs2 rs1 imm) : Statement (.sb rs2 rs1 imm) := by
  simp only [Statement, encode, Instr.row, opcodeOf_encodeS]; decide
theorem sh (rs2 rs1 imm) : Statement (.sh rs2 rs1 imm) := by
  simp only [Statement, encode, Instr.row, opcodeOf_encodeS]; decide
theorem sw (rs2 rs1 imm) : Statement (.sw rs2 rs1 imm) := by
  simp only [Statement, encode, Instr.row, opcodeOf_encodeS]; decide

end Sys2Proof.Laws.OpcodeField
end

