-- ==== Sys2Proof/Laws/Step.lean ====
section
/-! SUPPORT. What a step can do: the equation of each case, and the inversion. -/

namespace Sys2Proof.Machine

/-- The step of a Running state is its cycle. -/
theorem step_of_running {s : State} (h : s.status = .running) : step s = runCycle s := by
  simp [step, h]

/-- The fetch of a state that fetches `w` (R70). -/
theorem fetch_of_fetches {s : State} {w : Word} (h : Fetches s w) : fetch s = .ok w := by
  obtain ⟨-, ha, hr, hb⟩ := h
  rcases fetch_cases s with ⟨hn, -⟩ | ⟨-, hn, -⟩ | ⟨-, -, he⟩
  · exact absurd ha hn
  · omega
  · rw [he, Memory.readLE_word hb]

/-- The inversion of `step`: from a Running state there is exactly one next state, by a fetch fault, a
decode fault, or one of the outcomes of the decoded instruction. -/
theorem step_outcome {s : State} (h : s.status = .running) :
    (∃ reason, fetch s = .error reason ∧ step s = .next (s.raise reason)) ∨
    (∃ w, fetch s = .ok w ∧ decode w = .illegalOpcode ∧
      step s = .next (s.raise (.illegalOpcode w))) ∨
    (∃ w, fetch s = .ok w ∧ decode w = .unmappedFunct ∧
      step s = .next (s.raise (.unmappedFunct w))) ∨
    (∃ w i t, fetch s = .ok w ∧ decode w = .ok i ∧ step s = exec i s ∧ step s = .next t ∧
      Outcomes s t) := by
  rw [step_of_running h]
  cases hf : fetch s with
  | error reason => exact .inl ⟨reason, rfl, by simp [runCycle, hf, raiseFault]⟩
  | ok w =>
    cases hd : decode w with
    | illegalOpcode => exact .inr (.inl ⟨w, rfl, hd, by simp [runCycle, hf, hd, raiseFault]⟩)
    | unmappedFunct => exact .inr (.inr (.inl ⟨w, rfl, hd, by simp [runCycle, hf, hd, raiseFault]⟩))
    | ok i =>
      obtain ⟨t, ht, ho⟩ := exec_outcome i s
      exact .inr (.inr (.inr ⟨w, i, t, rfl, hd, by simp [runCycle, hf, hd],
        by simp [runCycle, hf, hd, ht], ho⟩))

end Sys2Proof.Machine
end

