-- ==== Sys2Proof/Tests/Slice0.lean ====
section
/-! SUPPORT. Our own tests. Every expected value is the spec's: spec/95_test_vectors.md (a vector is named
L1-n or L2-X-n) or the Example line of an instruction's rule (R<n>). Last, a witness of the hypotheses
of every statement that has any. -/

namespace Sys2Proof.Machine

/-! ## Helpers -/

/-- A Running state with the vectors' parameters (95_test_vectors.md, Conventions): the word at the PC,
the listed registers and data bytes, everything else 0. -/
def testState (pc word : Word) (regs : List (RegIdx × Word)) (data : List Host.Cell) : State :=
  (regs.foldl (fun (s : State) r => s.setReg r.1 r.2)
    { State.reset with pc := pc, dmem := preloadBytes [] data }).withFetchWord 32 word.toNat

/-- The next state of an outcome. -/
def nextState : Result → Option State
  | .next t => some t
  | .fault _ => none
  | .refused _ => none

/-- A register, the PC and the status after one step. -/
def afterStep (s : State) (r : RegIdx) : Option (Word × Word × Status) :=
  (nextState (step s)).map fun t => (t.getReg r, t.pc, t.status)

/-- The word at a data address, the PC and the status after one step. -/
def dataAfterStep (s : State) (a : Nat) : Option (Word × Word × Status) :=
  (nextState (step s)).map fun t => (t.dmem.readLE a .word, t.pc, t.status)

/-- A register, the PC and the status after one step with LUI_A_OPERAND = rs1. -/
def afterStepLuiRs1 (s : State) (r : RegIdx) : Option (Word × Word × Status) :=
  afterStep { s with cfg := { s.cfg with luiAOperand := .rs1 } } r

/-- The vectors' "dmem A": the word 0x81828384 at 0x100. -/
def dmemA : List Host.Cell := [(0x100, 0x84), (0x101, 0x83), (0x102, 0x82), (0x103, 0x81)]

/-- The vectors' "dmem B": the word 0x44332211 at 0x100. -/
def dmemB : List Host.Cell := [(0x100, 0x11), (0x101, 0x22), (0x102, 0x33), (0x103, 0x44)]

/-! ## WellFormed: every check, with a term it refuses and one it accepts -/

theorem test_wf_beq_refuses_odd : (Instr.beq 1 2 3).wf = false ∧ (Instr.beq 1 2 (-4096)).wf = true := by decide
theorem test_wf_bne_refuses_odd : (Instr.bne 1 2 3).wf = false ∧ (Instr.bne 1 2 (-4096)).wf = true := by decide
theorem test_wf_blt_refuses_odd : (Instr.blt 1 2 3).wf = false ∧ (Instr.blt 1 2 (-4096)).wf = true := by decide
theorem test_wf_bge_refuses_odd : (Instr.bge 1 2 3).wf = false ∧ (Instr.bge 1 2 (-4096)).wf = true := by decide
theorem test_wf_bltu_refuses_odd : (Instr.bltu 1 2 3).wf = false ∧ (Instr.bltu 1 2 (-4096)).wf = true := by decide
theorem test_wf_bgeu_refuses_odd : (Instr.bgeu 1 2 3).wf = false ∧ (Instr.bgeu 1 2 (-4096)).wf = true := by decide
theorem test_wf_jal_refuses_odd : (Instr.jal 1 1048575).wf = false ∧ (Instr.jal 1 (-1048576)).wf = true := by decide

/-! ## Decoding: a word of every constructor, as the spec writes it (R240 to R319, L1, L2) -/

theorem test_decode_add : decode 0x00A48433#32 = .ok (.add 8 9 10) ∧ encode (.add 8 9 10) = 0x00A48433#32 := by decide
theorem test_decode_sub : decode 0x40D100B3#32 = .ok (.sub 1 2 13) ∧ encode (.sub 1 2 13) = 0x40D100B3#32 := by decide
theorem test_decode_sll : decode 0x002091B3#32 = .ok (.sll 3 1 2) ∧ encode (.sll 3 1 2) = 0x002091B3#32 := by decide
theorem test_decode_slt : decode 0x0020A1B3#32 = .ok (.slt 3 1 2) ∧ encode (.slt 3 1 2) = 0x0020A1B3#32 := by decide
theorem test_decode_sltu : decode 0x002031B3#32 = .ok (.sltu 3 0 2) ∧ encode (.sltu 3 0 2) = 0x002031B3#32 := by decide
theorem test_decode_xor : decode 0x0020C1B3#32 = .ok (.xor 3 1 2) ∧ encode (.xor 3 1 2) = 0x0020C1B3#32 := by decide
theorem test_decode_srl : decode 0x0020D1B3#32 = .ok (.srl 3 1 2) ∧ encode (.srl 3 1 2) = 0x0020D1B3#32 := by decide
theorem test_decode_sra : decode 0x4020D1B3#32 = .ok (.sra 3 1 2) ∧ encode (.sra 3 1 2) = 0x4020D1B3#32 := by decide
theorem test_decode_or : decode 0x0020E1B3#32 = .ok (.or 3 1 2) ∧ encode (.or 3 1 2) = 0x0020E1B3#32 := by decide
theorem test_decode_and : decode 0x0020F1B3#32 = .ok (.and 3 1 2) ∧ encode (.and 3 1 2) = 0x0020F1B3#32 := by decide
theorem test_decode_addi : decode 0xFF448413#32 = .ok (.addi 8 9 (-12)) ∧ encode (.addi 8 9 (-12)) = 0xFF448413#32 := by decide
theorem test_decode_slti : decode 0x8000A193#32 = .ok (.slti 3 1 (-2048)) ∧ encode (.slti 3 1 (-2048)) = 0x8000A193#32 := by decide
theorem test_decode_sltiu : decode 0x0010B193#32 = .ok (.sltiu 3 1 1) ∧ encode (.sltiu 3 1 1) = 0x0010B193#32 := by decide
theorem test_decode_xori : decode 0xFFF2C393#32 = .ok (.xori 7 5 (-1)) ∧ encode (.xori 7 5 (-1)) = 0xFFF2C393#32 := by decide
theorem test_decode_ori : decode 0x0F00E193#32 = .ok (.ori 3 1 0x0F0) ∧ encode (.ori 3 1 0x0F0) = 0x0F00E193#32 := by decide
theorem test_decode_andi : decode 0x0FF0F193#32 = .ok (.andi 3 1 0xFF) ∧ encode (.andi 3 1 0xFF) = 0x0FF0F193#32 := by decide
theorem test_decode_slli : decode 0x01F09193#32 = .ok (.slli 3 1 31) ∧ encode (.slli 3 1 31) = 0x01F09193#32 := by decide
theorem test_decode_srli : decode 0x01C0D193#32 = .ok (.srli 3 1 28) ∧ encode (.srli 3 1 28) = 0x01C0D193#32 := by decide
theorem test_decode_srai : decode 0x41C0D193#32 = .ok (.srai 3 1 28) ∧ encode (.srai 3 1 28) = 0x41C0D193#32 := by decide
theorem test_decode_lui : decode 0x123451B7#32 = .ok (.lui 3 0x12345) ∧ encode (.lui 3 0x12345) = 0x123451B7#32 := by decide
theorem test_decode_auipc : decode 0xFFFFF197#32 = .ok (.auipc 3 0xFFFFF) ∧ encode (.auipc 3 0xFFFFF) = 0xFFFFF197#32 := by decide
theorem test_decode_jal : decode 0xFFDFF0EF#32 = .ok (.jal 1 (-4)) ∧ encode (.jal 1 (-4)) = 0xFFDFF0EF#32 := by decide
theorem test_decode_jalr : decode 0xFFE280E7#32 = .ok (.jalr 1 5 (-2)) ∧ encode (.jalr 1 5 (-2)) = 0xFFE280E7#32 := by decide
theorem test_decode_beq : decode 0xFE000CE3#32 = .ok (.beq 0 0 (-8)) ∧ encode (.beq 0 0 (-8)) = 0xFE000CE3#32 := by decide
theorem test_decode_bne : decode 0x00311863#32 = .ok (.bne 2 3 16) ∧ encode (.bne 2 3 16) = 0x00311863#32 := by decide
theorem test_decode_blt : decode 0x00314863#32 = .ok (.blt 2 3 16) ∧ encode (.blt 2 3 16) = 0x00314863#32 := by decide
theorem test_decode_bge : decode 0x00315863#32 = .ok (.bge 2 3 16) ∧ encode (.bge 2 3 16) = 0x00315863#32 := by decide
theorem test_decode_bltu : decode 0x00316863#32 = .ok (.bltu 2 3 16) ∧ encode (.bltu 2 3 16) = 0x00316863#32 := by decide
theorem test_decode_bgeu : decode 0x00317863#32 = .ok (.bgeu 2 3 16) ∧ encode (.bgeu 2 3 16) = 0x00317863#32 := by decide
theorem test_decode_lb : decode 0x00308183#32 = .ok (.lb 3 1 3) ∧ encode (.lb 3 1 3) = 0x00308183#32 := by decide
theorem test_decode_lh : decode 0x00209183#32 = .ok (.lh 3 1 2) ∧ encode (.lh 3 1 2) = 0x00209183#32 := by decide
theorem test_decode_lw : decode 0xFFC0A183#32 = .ok (.lw 3 1 (-4)) ∧ encode (.lw 3 1 (-4)) = 0xFFC0A183#32 := by decide
theorem test_decode_lbu : decode 0x0000C183#32 = .ok (.lbu 3 1 0) ∧ encode (.lbu 3 1 0) = 0x0000C183#32 := by decide
theorem test_decode_lhu : decode 0x0000D183#32 = .ok (.lhu 3 1 0) ∧ encode (.lhu 3 1 0) = 0x0000D183#32 := by decide
theorem test_decode_sb : decode 0xFE208E23#32 = .ok (.sb 2 1 (-4)) ∧ encode (.sb 2 1 (-4)) = 0xFE208E23#32 := by decide
theorem test_decode_sh : decode 0x002090A3#32 = .ok (.sh 2 1 1) ∧ encode (.sh 2 1 1) = 0x002090A3#32 := by decide
theorem test_decode_sw : decode 0x0221A423#32 = .ok (.sw 2 3 40) ∧ encode (.sw 2 3 40) = 0x0221A423#32 := by decide

/-- L2-IMM-1 to L2-IMM-6: the I and S immediates at their ends. -/
theorem test_imm_i_s : immGen ((0x7FF00013#32).extractLsb' 7 25) .i = 0x000007FF
    ∧ immGen ((0x80000013#32).extractLsb' 7 25) .i = 0xFFFFF800
    ∧ immGen ((0x7E000FA3#32).extractLsb' 7 25) .s = 0x000007FF
    ∧ immGen ((0x80000023#32).extractLsb' 7 25) .s = 0xFFFFF800
    ∧ immGen ((0xFE000FA3#32).extractLsb' 7 25) .s = 0xFFFFFFFF := by decide

/-- L2-IMM-7 to L2-IMM-10: the SB immediate; bit 7 of the word is imm[11]. -/
theorem test_imm_sb : immGen ((0x7E000FE3#32).extractLsb' 7 25) .sb = 0x00000FFE
    ∧ immGen ((0x80000063#32).extractLsb' 7 25) .sb = 0xFFFFF000
    ∧ immGen ((0x000000E3#32).extractLsb' 7 25) .sb = 0x00000800
    ∧ immGen ((0x00000FE3#32).extractLsb' 7 25) .sb = 0x0000081E := by decide

/-- L2-IMM-11 to L2-IMM-17: the U and UJ immediates, and R's zero. -/
theorem test_imm_u_uj_r : immGen ((0xFFFFF037#32).extractLsb' 7 25) .u = 0xFFFFF000
    ∧ immGen ((0x7FFFF06F#32).extractLsb' 7 25) .uj = 0x000FFFFE
    ∧ immGen ((0x8000006F#32).extractLsb' 7 25) .uj = 0xFFF00000
    ∧ immGen ((0x0010006F#32).extractLsb' 7 25) .uj = 0x00000800
    ∧ immGen ((0x0000106F#32).extractLsb' 7 25) .uj = 0x00001000
    ∧ immGen ((0xFFFFFFB3#32).extractLsb' 7 25) .r = 0 := by decide

/-- L2-F-1 to L2-F-5 and L2-F-16. -/
theorem test_decode_illegal : decode 0x00000000#32 = .illegalOpcode ∧ decode 0xFFFFFFFF#32 = .illegalOpcode
    ∧ decode 0x0FF0000F#32 = .illegalOpcode ∧ decode 0x00000073#32 = .illegalOpcode
    ∧ decode 0x00100073#32 = .illegalOpcode ∧ decode 0x00000001#32 = .illegalOpcode := by decide

/-- L2-F-6 to L2-F-15. -/
theorem test_decode_unmapped : decode 0x022081B3#32 = .unmappedFunct
    ∧ decode 0x402091B3#32 = .unmappedFunct ∧ decode 0x40109193#32 = .unmappedFunct
    ∧ decode 0x0210D193#32 = .unmappedFunct ∧ decode 0x00312863#32 = .unmappedFunct
    ∧ decode 0x0000B183#32 = .unmappedFunct ∧ decode 0x0000E183#32 = .unmappedFunct
    ∧ decode 0x0020B023#32 = .unmappedFunct ∧ decode 0x0020C023#32 = .unmappedFunct
    ∧ decode 0x000290E7#32 = .unmappedFunct := by decide

/-- The two functions the host calls, on the source's SW vector (L1-4). -/
theorem test_host_word : decodeTableWord 32 0x0221A423 = some (.sw 2 3 40)
    ∧ decodeTableWord 32 0 = none
    ∧ step (State.reset.withFetchWord 32 0x00500013) = exec (.addi 0 0 5) (State.reset.withFetchWord 32 0x00500013) := by
  refine ⟨by decide, by decide, rfl⟩

/-! ## One step of every instruction -/

/-- L2-R-1. -/
theorem test_add : afterStep (testState 0 0x002081B3 [(1, 0xFFFFFFFF), (2, 1)] []) 3
    = some (0, 4, .running) := by decide
/-- R240. -/
theorem test_add_overflow : afterStep (testState 0 0x002081B3 [(1, 0x7FFFFFFF), (2, 1)] []) 3
    = some (0x80000000, 4, .running) := by decide
/-- L2-R-3. -/
theorem test_sub : afterStep (testState 0 0x402081B3 [(1, 0x80000000), (2, 1)] []) 3
    = some (0x7FFFFFFF, 4, .running) := by decide
/-- R241. -/
theorem test_sub_wraps : afterStep (testState 0 0x402081B3 [(1, 0), (2, 1)] []) 3
    = some (0xFFFFFFFF, 4, .running) := by decide
/-- L2-R-5. -/
theorem test_sll_by_32 : afterStep (testState 0 0x002091B3 [(1, 0x12345678), (2, 0x20)] []) 3
    = some (0x12345678, 4, .running) := by decide
/-- L2-R-6. -/
theorem test_sll : afterStep (testState 0 0x002091B3 [(1, 0xFFFFFFFF), (2, 0x1F)] []) 3
    = some (0x80000000, 4, .running) := by decide
/-- L2-R-11. -/
theorem test_slt : afterStep (testState 0 0x0020A1B3 [(1, 0x80000000), (2, 0x7FFFFFFF)] []) 3
    = some (1, 4, .running) := by decide
/-- L2-R-12. -/
theorem test_sltu : afterStep (testState 0 0x0020B1B3 [(1, 0x80000000), (2, 0x7FFFFFFF)] []) 3
    = some (0, 4, .running) := by decide
/-- R245. -/
theorem test_xor : afterStep (testState 0 0x0020C1B3 [(1, 0xF0F0F0F0), (2, 0xFF00FF00)] []) 3
    = some (0x0FF00FF0, 4, .running) := by decide
/-- L2-R-15. -/
theorem test_xor_self : afterStep (testState 0 0x0010C0B3 [(1, 0xDEADBEEF)] []) 1
    = some (0, 4, .running) := by decide
/-- L2-R-7. -/
theorem test_srl : afterStep (testState 0 0x0020D1B3 [(1, 0x80000000), (2, 0x1F)] []) 3
    = some (1, 4, .running) := by decide
/-- L2-R-8. -/
theorem test_srl_low_bits : afterStep (testState 0 0x0020D1B3 [(1, 0x80000000), (2, 0xFFFFFFE0)] []) 3
    = some (0x80000000, 4, .running) := by decide
/-- R247. -/
theorem test_sra : afterStep (testState 0 0x4020D1B3 [(1, 0x80000000), (2, 4)] []) 3
    = some (0xF8000000, 4, .running) := by decide
/-- R248. -/
theorem test_or : afterStep (testState 0 0x0020E1B3 [(1, 0xF0F0F0F0), (2, 0x0F0F0F0F)] []) 3
    = some (0xFFFFFFFF, 4, .running) := by decide
/-- R249. -/
theorem test_and : afterStep (testState 0 0x0020F1B3 [(1, 0xF0F0F0F0), (2, 0xFF00FF00)] []) 3
    = some (0xF000F000, 4, .running) := by decide
/-- L2-I-2. -/
theorem test_addi : afterStep (testState 0 0x80008193 [] []) 3
    = some (0xFFFFF800, 4, .running) := by decide
/-- L2-I-13. -/
theorem test_addi_funct7_bits : afterStep (testState 0 0x40008193 [(1, 1)] []) 3
    = some (0x401, 4, .running) := by decide
/-- R261. -/
theorem test_slti : afterStep (testState 0 0xFFF0A193 [(1, 0xFFFFFFFE)] []) 3
    = some (1, 4, .running) := by decide
/-- R262. -/
theorem test_sltiu : afterStep (testState 0 0xFFF0B193 [(1, 5)] []) 3
    = some (1, 4, .running) := by decide
/-- R263. -/
theorem test_xori : afterStep (testState 0 0xFFF0C193 [(1, 0x12345678)] []) 3
    = some (0xEDCBA987, 4, .running) := by decide
/-- L2-I-8. -/
theorem test_ori : afterStep (testState 0 0x8000E193 [(1, 1)] []) 3
    = some (0xFFFFF801, 4, .running) := by decide
/-- R265. -/
theorem test_andi : afterStep (testState 0 0x0FF0F193 [(1, 0x12345678)] []) 3
    = some (0x78, 4, .running) := by decide
/-- R266. -/
theorem test_slli : afterStep (testState 0 0x01F09193 [(1, 3)] []) 3
    = some (0x80000000, 4, .running) := by decide
/-- R267. -/
theorem test_srli : afterStep (testState 0 0x01C0D193 [(1, 0xF0000000)] []) 3
    = some (0xF, 4, .running) := by decide
/-- R268. -/
theorem test_srai : afterStep (testState 0 0x41C0D193 [(1, 0x80000000)] []) 3
    = some (0xFFFFFFF8, 4, .running) := by decide
/-- L2-U-1. -/
theorem test_lui : afterStep (testState 0 0xFFFFF1B7 [] []) 3
    = some (0xFFFFF000, 4, .running) := by decide
/-- L2-U-2. -/
theorem test_lui_rs1 : afterStepLuiRs1 (testState 0 0x123451B7 [(8, 0x10)] []) 3
    = some (0x12345010, 4, .running) := by decide
/-- L2-U-5. -/
theorem test_auipc : afterStep (testState 0x80 0x80000197 [] []) 3
    = some (0x80000080, 0x84, .running) := by decide
/-- L2-J-1. -/
theorem test_jal : afterStep (testState 4 0x008000EF [] []) 1
    = some (8, 0xC, .running) := by decide
/-- L2-J-4. -/
theorem test_jal_misaligned : afterStep (testState 8 0x0020006F [] []) 1
    = some (0, 8, .faulted (.targetMisaligned 0xA)) := by decide
/-- L2-J-6. -/
theorem test_jalr_old_rs1 : afterStep (testState 8 0x000282E7 [(5, 0x20)] []) 5
    = some (0xC, 0x20, .running) := by decide
/-- L2-J-7. -/
theorem test_jalr_bit_0 : afterStep (testState 8 0x001280E7 [(5, 0x20)] []) 1
    = some (0, 8, .faulted (.targetMisaligned 0x21)) := by decide
/-- L2-B-1. -/
theorem test_beq : afterStep (testState 8 0x00310863 [(2, 5), (3, 5)] []) 2
    = some (5, 0x18, .running) := by decide
/-- L2-B-7. -/
theorem test_beq_misaligned : afterStep (testState 8 0x00000363 [] []) 0
    = some (0, 8, .faulted (.targetMisaligned 0xE)) := by decide
/-- R296. -/
theorem test_bne : afterStep (testState 8 0x00311863 [(2, 1), (3, 0xFFFFFFFF)] []) 2
    = some (1, 0x18, .running) := by decide
/-- L2-B-8. -/
theorem test_bne_untaken_misaligned : afterStep (testState 8 0x00001363 [] []) 0
    = some (0, 0xC, .running) := by decide
/-- L2-B-3. -/
theorem test_blt : afterStep (testState 8 0x00314863 [(2, 0xFFFFFFFF), (3, 1)] []) 3
    = some (1, 0x18, .running) := by decide
/-- R298. -/
theorem test_bge : afterStep (testState 8 0x00315863 [(2, 0xFFFFFFFF), (3, 1)] []) 3
    = some (1, 0xC, .running) := by decide
/-- L2-B-5. -/
theorem test_bge_equal : afterStep (testState 8 0x00315863 [(2, 0x80000000), (3, 0x80000000)] []) 0
    = some (0, 0x18, .running) := by decide
/-- L2-B-4. -/
theorem test_bltu : afterStep (testState 8 0x00316863 [(2, 0xFFFFFFFF), (3, 1)] []) 3
    = some (1, 0xC, .running) := by decide
/-- R300. -/
theorem test_bgeu : afterStep (testState 8 0x00317863 [(2, 0xFFFFFFFF), (3, 1)] []) 3
    = some (1, 0x18, .running) := by decide
/-- L2-M-1. -/
theorem test_lb : afterStep (testState 0 0x00008183 [(1, 0x100)] dmemA) 3
    = some (0xFFFFFF84, 4, .running) := by decide
/-- L2-M-8. -/
theorem test_lb_misaligned : afterStep (testState 0 0x00308183 [(1, 0x100)] dmemA) 3
    = some (0, 0, .faulted (.dataMisaligned 0x103)) := by decide
/-- L2-M-3. -/
theorem test_lh : afterStep (testState 0 0x00009183 [(1, 0x100)] dmemA) 3
    = some (0xFFFF8384, 4, .running) := by decide
/-- L2-M-6. -/
theorem test_lw : afterStep (testState 0 0x0040A183 [(1, 0xFC)] dmemA) 3
    = some (0x81828384, 4, .running) := by decide
/-- L2-M-9. -/
theorem test_lw_wrapped : afterStep (testState 0 0xFFC02183 [] dmemA) 3
    = some (0, 0, .faulted (.dataOutOfRange 0xFFFFFFFC)) := by decide
/-- L2-M-2. -/
theorem test_lbu : afterStep (testState 0 0x0000C183 [(1, 0x100)] dmemA) 3
    = some (0x84, 4, .running) := by decide
/-- L2-M-4. -/
theorem test_lhu : afterStep (testState 0 0x0000D183 [(1, 0x100)] dmemA) 3
    = some (0x8384, 4, .running) := by decide
/-- L2-M-15. -/
theorem test_sb : dataAfterStep (testState 0 0x00208023 [(1, 0x100), (2, 0xAABBCCDD)] dmemB) 0x100
    = some (0x443322DD, 4, .running) := by decide
/-- L2-M-16. -/
theorem test_sh : dataAfterStep (testState 0 0x00209023 [(1, 0x100), (2, 0xAABBCCDD)] dmemB) 0x100
    = some (0x4433CCDD, 4, .running) := by decide
/-- L2-M-17. -/
theorem test_sw : dataAfterStep (testState 0 0x0020A023 [(1, 0x100), (2, 0xAABBCCDD)] dmemB) 0x100
    = some (0xAABBCCDD, 4, .running) := by decide
/-- L2-M-23. -/
theorem test_sw_misaligned_first : dataAfterStep (testState 0 0x0020A023 [(1, 0x201), (2, 1)] []) 0x200
    = some (0, 0, .faulted (.dataMisaligned 0x201)) := by decide

/-- L1-2: a write to x0 leaves the state's registers as they were. -/
theorem test_x0 : afterStep (testState 0 0x00500013 [] []) 0 = some (0, 4, .running) := by decide

/-- L2-F-17. -/
theorem test_fetch_misaligned : afterStep (testState 2 0x13 [] []) 0
    = some (0, 2, .faulted (.fetchMisaligned 2)) := by decide

/-- A word stored with a zero byte keeps the canonical form (the bytes of L2-M-21). -/
theorem test_sw_canonical : (nextState (step (testState 0 0x0010A023 [(1, 0x100)] []))).map (·.dmem)
    = some [(0x101, 0x01)] := by decide

/-- L1-1 and the ALU's NOT (R201). -/
theorem test_alu : alu 0xFFFFFFFF 1 .add = 0 ∧ alu 0x0F0F0F0F 5 .not = 0xF0F0F0F0 := by decide

/-- L1-5, row by row: the taken rule on the outcomes equal, lessThan and greaterThan. -/
theorem test_branch_taken :
    [BranchKind.beq, .bne, .blt, .bge].map (fun k =>
      [branchTaken k ⟨true, false⟩, branchTaken k ⟨false, true⟩, branchTaken k ⟨false, false⟩])
    = [[true, false, false], [false, true, true], [false, true, false], [true, false, true]] := by decide

/-! ## Launch, run and assembler -/

/-- A launch with the vectors' parameters. -/
def testLaunch (cfg : Config) (program : List Word) : LaunchArgs :=
  { cfg := cfg, program := program, regs := Vector.replicate 32 0, data := [] }

/-- How a launch and its run end: the reason if any, the PC and the steps. -/
def runSummary (l : LaunchArgs) (maxSteps : Nat) : Option (Option FaultReason × Word × Nat) :=
  match launch l with
  | .error _ => none
  | .ok s =>
    match run maxSteps s with
    | .error reason t k => some (some reason, t.pc, k)
    | .bound t k => some (none, t.pc, k)
    | .refused _ => none

/-- L2-F-18 and L2-F-19, with one nop instead of four: the two ends of a program that runs past its end. -/
theorem test_run_past_end :
    runSummary (testLaunch ⟨1, 1, 0, .zero⟩ [0x13]) 9 = some (some (.fetchOutOfRange 4), 4, 1)
    ∧ runSummary (testLaunch ⟨2, 1, 0, .zero⟩ [0x13]) 9 = some (some (.illegalOpcode 0), 4, 1) := by decide

/-- P5: `steps` counts the completed instructions only. -/
theorem test_run_p5 : runSummary (testLaunch ⟨64, 128, 0, .zero⟩ [0x00600293, 0x000280E7]) 9
    = some (some (.targetMisaligned 6), 4, 1) := by decide

/-- R452: a program longer than the InstructionMemory is refused. -/
theorem test_launch_refused : launch (testLaunch ⟨1, 1, 0, .zero⟩ [0x13, 0x13]) = .error .programTooLong := by
  decide

/-- The words of one line. -/
def assembledWord (line : String) : Option Word :=
  match assembleLine line.toList with
  | .ok (some i) => some (encode i)
  | .ok none => none
  | .error _ => none

/-- L1-4: the source's encoder vectors, and R153's two forms of a store. -/
theorem test_assemble_vectors : assembledWord "addi x8, x9, -12" = some 0xFF448413
    ∧ assembledWord "add x8, x9, x10" = some 0x00A48433 ∧ assembledWord "sub x1, x2, x13" = some 0x40D100B3
    ∧ assembledWord "sw x2, x3, 40" = some 0x0221A423 ∧ assembledWord "sw x2, 40(x3)" = some 0x0221A423 := by
  decide

/-- L1-8: the pseudo-instructions. -/
theorem test_assemble_pseudo : assembledWord "nop" = some 0x00000013
    ∧ assembledWord "li x5, -1" = some 0xFFF00293 ∧ assembledWord "mv x6, x5" = some 0x00028313
    ∧ assembledWord "not x7, x5" = some 0xFFF2C393 ∧ assembledWord "neg x8, x5" = some 0x40500433
    ∧ assembledWord "beqz x5, 16" = some 0x00028863 ∧ assembledWord "bnez x5, -16" = some 0xFE0298E3
    ∧ assembledWord "j 2048" = some 0x0010006F ∧ assembledWord "jr x1" = some 0x00008067
    ∧ assembledWord "ret" = some 0x00008067 := by
  decide

/-- R154: what the assembler rejects; R152: a comment line. -/
theorem test_assemble_rejects : assembleLine "jal x1, 3".toList = .error .oddOffset
    ∧ assembleLine "addi x1, x0, 4096".toList = .error .literalOutOfRange
    ∧ assembleLine "slli x1, x1, 32".toList = .error .literalOutOfRange
    ∧ assembleLine "fence".toList = .error .unknownMnemonic
    ∧ assembleLine "mv fp, x1".toList = .error .unknownRegister
    ∧ assembleLine "  # a comment".toList = .ok none := by
  decide

/-- R158, D28. -/
theorem test_loader : loaderLine "0x0221A423".toList = .ok 0x0221A423
    ∧ loaderLine "4294967295".toList = .ok 0xFFFFFFFF
    ∧ loaderLine "4294967296".toList = .error .outOfRange
    ∧ loaderLine "-1".toList = .error .outOfRange := by
  decide

/-- R158: a text of one decimal or hex integer per line; the words are L1-4's. -/
theorem test_machine_code_text : loadText "0x0221A423\n4282680339\n".toList = .ok [0x0221A423, 0xFF448413]
    ∧ loadText (programText [0x0221A423, 0xFF448413]) = .ok [0x0221A423, 0xFF448413]
    ∧ loadText "0x0221A423\n4294967296".toList = .error .outOfRange := by
  decide

/-- R452 step 2: assemble-then-load puts L1-4's words at 0 and 4. -/
theorem test_assemble_then_load : (match launchSource (testLaunch defaultConfig [])
      "# L1-4\nsw x2, 40(x3)\naddi x8, x9, -12 # I\n".toList with
    | .ok s => [s.imem.readLE 0 .word, s.imem.readLE 4 .word, s.imem.readLE 8 .word]
    | .error _ => []) = [0x0221A423, 0xFF448413, 0] := by
  decide

/-! ## Witnesses: for every statement with hypotheses, inputs that meet them -/

/-- A state in which the word is fetched at pc 0. -/
abbrev fetching (word : Word) (regs : List (RegIdx × Word)) : State := testState 0 word regs []

theorem fetches_iff (s : State) (w : Word) : Fetches s w ↔
    (s.status = .running ∧ s.pc.toNat % 4 = 0 ∧ s.pc.toNat + 4 ≤ 4 * s.cfg.imemWords
      ∧ ∀ k, k < 4 → s.imem.read (s.pc.toNat + k) = w.extractLsb' (8 * k) 8) := Iff.rfl

/-- A step that ends in the given status. -/
abbrev EndsWith (s : State) (st : Status) : Prop :=
  s.status = .running ∧ (nextState (step s)).map (·.status) = some st

/-- The next state of a step, as a premise `step s = .next t`. -/
theorem next_of_isSome {s : State} (h : (nextState (step s)).isSome) : ∃ t, step s = .next t := by
  cases hs : step s with
  | next t => exact ⟨t, rfl⟩
  | fault f => rw [hs] at h; cases h
  | refused r => rw [hs] at h; cases h

/-- The same with the status. -/
theorem next_of_endsWith {s : State} {st : Status} (h : EndsWith s st) :
    ∃ t, s.status = .running ∧ step s = .next t ∧ t.status = st := by
  obtain ⟨hr, h⟩ := h
  cases hs : step s with
  | next t => exact ⟨t, hr, rfl, by rw [hs] at h; exact Option.some.inj h⟩
  | fault f => rw [hs] at h; cases h
  | refused r => rw [hs] at h; cases h

theorem witness_DecodeInvertsEncode : (Instr.beq 1 2 (-4096)).wf = true ∧ (Instr.jal 31 1048574).wf = true
    ∧ (Instr.sw 2 3 (-2048)).wf = true := by decide

theorem witness_EncodeInvertsDecode : ∃ i, decode 0xFF448413#32 = .ok i := ⟨.addi 8 9 (-12), by decide⟩

theorem witness_OpcodeMapDecidesDecoding :
    (∃ i, decode 0x40D100B3#32 = .ok i)
    ∧ (Instr.sub 0 0 0).row ∈ opcodeMap
    ∧ 0x40D100B3#32 &&& (Instr.sub 0 0 0).row.mask = (Instr.sub 0 0 0).row.pattern
    ∧ (∀ r ∈ opcodeMap, 0#32 &&& r.mask ≠ r.pattern) := ⟨⟨.sub 1 2 13, by decide⟩, by decide⟩

theorem witness_UnknownOpcodeRaisesIllegalOpcode : Fetches (fetching 0x0FF0000F []) 0x0FF0000F
    ∧ (0x0FF0000F#32).extractLsb' 0 7 ∉ mappedOpcodes := by rw [fetches_iff]; decide

theorem witness_IllegalWordsAreExactlyTheListed : opcodeOf 0x00000013#32 ∈ mappedOpcodes
    ∧ ¬ UnmappedWord 0x00000013 ∧ Fetches (fetching 0x0000E183 []) 0x0000E183
    ∧ UnmappedWord 0x0000E183 ∧ UnmappedWord 0x022081B3 ∧ UnmappedWord 0x402091B3
    ∧ UnmappedWord 0x40109193 ∧ UnmappedWord 0x0210D193 ∧ UnmappedWord 0x00312863
    ∧ UnmappedWord 0x0020B023 ∧ UnmappedWord 0x000290E7 := by
  unfold UnmappedWord
  exact ⟨by decide, by decide, by rw [fetches_iff]; decide, by decide, by decide, by decide, by decide,
    by decide, by decide, by decide, by decide⟩

theorem witness_ControlUnitGivesTheSignalTable : (Instr.bgeu 2 3 16).wf = true := by decide

theorem witness_CycleDrivesTheDataMemoryPorts : ∀ w ∈ [0x0221A423#32, 0x00012083#32, 0x00A48433#32],
    ∃ fmt sig0, controlUnit .zero w = .ok fmt sig0
      ∧ ((dataPort (opcodeOf w) (resolvePcSel fmt (funct3Of w) ⟨false, false⟩ sig0) 8 5).map
          fun p => (p.readEnable, p.writeEnable))
        = if opcodeOf w = 0x23 then some (false, true)
          else if opcodeOf w = 0x03 then some (true, false) else none := by
  intro w h
  simp only [List.mem_cons, List.not_mem_nil, or_false] at h
  obtain rfl | rfl | rfl := h <;> exact ⟨_, _, rfl, rfl⟩

theorem witness_StepIsTheDatapathCycle : State.reset.status = .running := by decide

theorem witness_StepRunsDecodedInstruction : Fetches (testState 252 0x00A48433 [] []) 0x00A48433
    ∧ decode 0x00A48433#32 = .ok (.add 8 9 10) := by rw [fetches_iff]; decide

theorem witness_FaultsArePreciseAndFinal :
    (State.reset.raise (.illegalOpcode 0)).status = .faulted (.illegalOpcode 0)
    ∧ ∃ t, State.reset.status = .running ∧ step State.reset = .next t
      ∧ t.status = .faulted (.illegalOpcode 0) := ⟨by decide, next_of_endsWith (by decide)⟩

theorem witness_RunningStateHasExactlyOneSuccessor : State.reset.status = .running
    ∧ (State.reset.raise (.illegalOpcode 0)).status = .faulted (.illegalOpcode 0) := by decide

theorem witness_FetchFaultsOrReadsTheWordAtPc :
    (testState 2 0 [] []).status = .running ∧ (testState 2 0 [] []).pc.toNat % 4 ≠ 0
    ∧ (testState 256 0 [] []).pc.toNat % 4 = 0
    ∧ (testState 256 0 [] []).pc.toNat + 4 > 4 * (testState 256 0 [] []).cfg.imemWords
    ∧ (testState 252 0 [] []).pc.toNat % 4 = 0
    ∧ (testState 252 0 [] []).pc.toNat + 4 ≤ 4 * (testState 252 0 [] []).cfg.imemWords := by decide

theorem witness_FetchFaultsOrReadsTheWordAtPc_reachable : ∃ (l : LaunchArgs) (s t : State),
    l.cfg.resetPc.toNat % 4 = 0 ∧ Reachable l s ∧ step s = .next t := by
  obtain ⟨t, ht⟩ := next_of_isSome (s := State.reset) (by decide)
  exact ⟨testLaunch defaultConfig [], State.reset, t, by decide, .start (by decide), ht⟩

theorem witness_EveryFaultHasItsOwnCause :
    EndsWith (testState 2 0 [] []) (.faulted (.fetchMisaligned 2))
    ∧ EndsWith (testState 256 0 [] []) (.faulted (.fetchOutOfRange 256))
    ∧ EndsWith (fetching 0x00000073 []) (.faulted (.illegalOpcode 0x00000073))
    ∧ EndsWith (fetching 0x40109193 []) (.faulted (.unmappedFunct 0x40109193))
    ∧ EndsWith (fetching 0x00209183 [(1, 0x100)]) (.faulted (.dataMisaligned 0x102))
    ∧ EndsWith (fetching 0x00208023 [(1, 0x200)]) (.faulted (.dataOutOfRange 0x200))
    ∧ EndsWith (fetching 0x00000363 []) (.faulted (.targetMisaligned 6)) := by decide

theorem witness_OnlyLoadsReadAndOnlyStoresWriteData :
    Fetches (fetching 0x00A00293 []) 0x00A00293
    ∧ (∃ t, step (fetching 0x00A00293 []) = .next t)
    ∧ opcodeOf 0x00A00293#32 ≠ 0x23 ∧ opcodeOf 0x00A00293#32 ≠ 0x03 :=
  ⟨by rw [fetches_iff]; decide, next_of_isSome (by decide), by decide⟩

theorem witness_InstructionMemoryNeverChanges :
    (∃ t, step State.reset = .next t) ∧ (∃ t, Sys2Proof.core.run 1 State.reset = .next t) := by
  obtain ⟨t, ht⟩ := next_of_isSome (s := State.reset) (by decide)
  refine ⟨⟨t, ht⟩, t, ?_⟩
  have hc : Sys2Proof.core.step State.reset = .next t := ht
  simp only [Host.Core.run, hc]

theorem witness_OnlyRdOfAWritingWordChanges : Fetches (fetching 0x00A00293 []) 0x00A00293
    ∧ (nextState (step (fetching 0x00A00293 []))).any
        (fun t => decide (t.getReg 5 ≠ (fetching 0x00A00293 []).getReg 5)) = true :=
  ⟨by rw [fetches_iff]; decide, by decide⟩

theorem witness_RegisterZeroIsHardWired : ∃ (l : LaunchArgs) (s : State), Reachable l s :=
  ⟨testLaunch defaultConfig [], State.reset, .start (by decide)⟩

theorem witness_PcMovesToTheNextWordOrTheTarget : Fetches (fetching 0x008000EF []) 0x008000EF
    ∧ decode 0x008000EF#32 = .ok (.jal 1 8) ∧ EndsWith (fetching 0x008000EF []) .running := by
  rw [fetches_iff]; decide

/-- A state that fetches SW of x5 to the last word of the DataMemory. -/
abbrev storing : State := testState 4 0x0051A023 [(3, 0x1FC), (5, 10)] dmemA

theorem witness_StepKeepsTheInvariant : ∃ s t : State, s.Inv ∧ step s = .next t := by
  obtain ⟨t, ht⟩ := next_of_isSome (s := storing) (by decide)
  exact ⟨storing, t,
    ⟨by decide, by decide, by decide, by decide, by decide, by decide, by decide⟩, ht⟩

theorem witness_ReachableStatesMeetTheInvariant : ∃ (l : LaunchArgs) (s : State),
    l.cfg.resetPc.toNat % 4 = 0 ∧ Reachable l s :=
  ⟨testLaunch defaultConfig [], State.reset, by decide, .start (by decide)⟩

/-- A launch that fills both memories to their last byte. -/
def fullLaunch : LaunchArgs :=
  { cfg := ⟨1, 1, 4, .zero⟩, program := [0x13], regs := Vector.replicate 32 7, data := [(3, 0x55), (0, 0x66)] }

theorem witness_LaunchStateHoldsWhatTheLaunchSupplies :
    (∃ s, launch fullLaunch = .ok s) ∧ 0 < fullLaunch.program.length
    ∧ 4 * fullLaunch.program.length ≤ 4 ∧ (fullLaunch.data.map (·.1)).Nodup
    ∧ (3, 0x55#8) ∈ fullLaunch.data ∧ 1 ∉ fullLaunch.data.map (·.1) := ⟨⟨_, rfl⟩, by decide⟩

theorem witness_BadResetPcFaultsAtTheFirstFetch :
    (∃ s, launch (testLaunch ⟨1, 1, 2, .zero⟩ []) = .ok s) ∧ (2#32).toNat % 4 ≠ 0
    ∧ (∃ s, launch (testLaunch ⟨1, 1, 4, .zero⟩ []) = .ok s) ∧ (4#32).toNat % 4 = 0
    ∧ 4 * 1 ≤ (4#32).toNat := ⟨⟨_, rfl⟩, by decide, ⟨_, rfl⟩, by decide, by decide⟩

theorem witness_RunningPastTheProgramFaults :
    (testLaunch ⟨1, 1, 0, .zero⟩ [0x13, 0x13]).program.length > 1
    ∧ (∃ t, Reachable (testLaunch defaultConfig []) t ∧ t.status = .running ∧ t.pc.toNat = 4 * 0
        ∧ 0 < defaultConfig.imemWords)
    ∧ (∃ t, Reachable fullLaunch t ∧ t.status = .running
        ∧ t.pc.toNat = 4 * fullLaunch.program.length
        ∧ fullLaunch.program.length = fullLaunch.cfg.imemWords) :=
  ⟨by decide, ⟨State.reset, .start (by decide), by decide, by decide, by decide⟩,
    ⟨_, .start rfl, rfl, rfl, rfl⟩⟩

theorem witness_RunEndsAtAFaultOrAtTheBound : State.reset.status = .running
    ∧ (∃ t k, run 0 State.reset = .bound t k) ∧ (∃ reason t k, run 1 State.reset = .error reason t k) :=
  ⟨by decide, ⟨_, _, rfl⟩, ⟨_, _, _, rfl⟩⟩

theorem witness_ShiftsUseFiveBitsOfOperandB : (AluOp.sra = .sll ∨ AluOp.sra = .srl ∨ AluOp.sra = .sra)
    ∧ ∀ k, k < 5 → (33#32).getLsbD k = (1#32).getLsbD k := by decide

theorem witness_SignExtensionCopiesTheTopBit : 1 ≤ 1 ∧ 1 ≤ 32 ∧ 32 ≤ 32 := by decide

theorem witness_RaisesUnmapped :
    Fetches (fetching 0x40109193 []) 0x40109193 ∧ 0x40109193#32 &&& 0x0000707F = 0x00001013
    ∧ funct7Of 0x40109193#32 ≠ 0x00
    ∧ Fetches (fetching 0x0210D193 []) 0x0210D193 ∧ 0x0210D193#32 &&& 0x0000707F = 0x00005013
    ∧ funct7Of 0x0210D193#32 ≠ 0x00 ∧ funct7Of 0x0210D193#32 ≠ 0x20
    ∧ Fetches (fetching 0x000290E7 []) 0x000290E7 ∧ opcodeOf 0x000290E7#32 = 0x67
    ∧ funct3Of 0x000290E7#32 ≠ 0b000 := by
  simp only [fetches_iff]; decide

theorem witness_LuiWritesTheUpperImmediate : State.reset.cfg.luiAOperand = .zero
    ∧ ({ State.reset.cfg with luiAOperand := .rs1 } : Config).luiAOperand = .rs1 := by decide

/-! The rows of the opcode map that the instructions' statements name, each with a word of the row. -/

theorem witness_AddAndSubWrapModuloTwoTo32_rows : 0x00A48433#32 &&& 0xFE00707F = 0x00000033
    ∧ 0x40D100B3#32 &&& 0xFE00707F = 0x40000033 := by decide
theorem witness_RegisterShiftsByTheLowFiveBits_rows : 0x002091B3#32 &&& 0xFE00707F = 0x00001033
    ∧ 0x0020D1B3#32 &&& 0xFE00707F = 0x00005033
    ∧ 0x4020D1B3#32 &&& 0xFE00707F = 0x40005033 := by decide
theorem witness_SltAndSltuCompareRegisters_rows : 0x0020A1B3#32 &&& 0xFE00707F = 0x00002033
    ∧ 0x002031B3#32 &&& 0xFE00707F = 0x00003033 := by decide
theorem witness_XorOrAndCombineRegisters_rows : 0x0020C1B3#32 &&& 0xFE00707F = 0x00004033
    ∧ 0x0020E1B3#32 &&& 0xFE00707F = 0x00006033
    ∧ 0x0020F1B3#32 &&& 0xFE00707F = 0x00007033 := by decide
theorem witness_AddiAddsTheSignExtendedImmediate_rows : 0xFF448413#32 &&& 0x0000707F = 0x00000013 := by decide
theorem witness_SltiAndSltiuCompareWithTheImmediate_rows : 0x8000A193#32 &&& 0x0000707F = 0x00002013
    ∧ 0x0010B193#32 &&& 0x0000707F = 0x00003013 := by decide
theorem witness_XoriOriAndiCombineWithTheImmediate_rows : 0xFFF2C393#32 &&& 0x0000707F = 0x00004013
    ∧ 0x0F00E193#32 &&& 0x0000707F = 0x00006013
    ∧ 0x0FF0F193#32 &&& 0x0000707F = 0x00007013 := by decide
theorem witness_ImmediateShiftsByTheShamtField_rows : 0x01F09193#32 &&& 0xFE00707F = 0x00001013
    ∧ 0x01C0D193#32 &&& 0xFE00707F = 0x00005013
    ∧ 0x41C0D193#32 &&& 0xFE00707F = 0x40005013 := by decide
theorem witness_LuiWritesTheUpperImmediate_rows : 0x123451B7#32 &&& 0x0000007F = 0x00000037 := by decide
theorem witness_AuipcAddsTheUpperImmediateToPc_rows : 0xFFFFF197#32 &&& 0x0000007F = 0x00000017 := by decide
theorem witness_JalLinksAndJumpsOrFaults_rows : 0xFFDFF0EF#32 &&& 0x0000007F = 0x0000006F := by decide
theorem witness_JalrLinksAndJumpsOrFaults_rows : 0xFFE280E7#32 &&& 0x0000707F = 0x00000067 := by decide
theorem witness_BeqAndBneBranchOnEquality_rows : 0xFE000CE3#32 &&& 0x0000707F = 0x00000063
    ∧ 0x00311863#32 &&& 0x0000707F = 0x00001063 := by decide
theorem witness_BltAndBgeBranchOnSignedOrder_rows : 0x00314863#32 &&& 0x0000707F = 0x00004063
    ∧ 0x00315863#32 &&& 0x0000707F = 0x00005063 := by decide
theorem witness_BltuAndBgeuBranchOnUnsignedOrder_rows : 0x00316863#32 &&& 0x0000707F = 0x00006063
    ∧ 0x00317863#32 &&& 0x0000707F = 0x00007063 := by decide
theorem witness_ByteLoadsExtendTheByte_rows : 0x00308183#32 &&& 0x0000707F = 0x00000003
    ∧ 0x0000C183#32 &&& 0x0000707F = 0x00004003 := by decide
theorem witness_HalfLoadsExtendTheHalfWord_rows : 0x00209183#32 &&& 0x0000707F = 0x00001003
    ∧ 0x0000D183#32 &&& 0x0000707F = 0x00005003 := by decide
theorem witness_WordLoadReadsFourBytes_rows : 0xFFC0A183#32 &&& 0x0000707F = 0x00002003 := by decide
theorem witness_StoresWriteExactlyTheirBytes_rows : 0xFE208E23#32 &&& 0x0000707F = 0x00000023
    ∧ 0x002090A3#32 &&& 0x0000707F = 0x00001023
    ∧ 0x0221A423#32 &&& 0x0000707F = 0x00002023 := by decide

theorem witness_JalLinksAndJumpsOrFaults :
    (State.reset.pc + (1048572#21).signExtend 32).toNat % 4 = 0
    ∧ (State.reset.pc + (1048574#21).signExtend 32).toNat % 4 ≠ 0 := by decide

theorem witness_JalrLinksAndJumpsOrFaults :
    ((testState 0 0 [(5, 0x22)] []).getReg 5 + (-2#12).signExtend 32).toNat % 4 = 0
    ∧ ((testState 0 0 [(5, 0x20)] []).getReg 5 + (1#12).signExtend 32).toNat % 4 ≠ 0 := by decide

/-- Registers on which BEQ, BGE and BGEU are taken and the other three are not. -/
abbrev equalRegs : State := testState 8 0 [(2, 5), (3, 5)] []

/-- Registers on which BNE, BLT and BGEU are taken and the other three are not. -/
abbrev minusOneAndOne : State := testState 8 0 [(2, 0xFFFFFFFF), (3, 1)] []

theorem witness_branch_targets : (equalRegs.pc + (-8#13).signExtend 32).toNat % 4 = 0
    ∧ (equalRegs.pc + (4094#13).signExtend 32).toNat % 4 ≠ 0
    ∧ (minusOneAndOne.pc + (-8#13).signExtend 32).toNat % 4 = 0
    ∧ (minusOneAndOne.pc + (4094#13).signExtend 32).toNat % 4 ≠ 0 := by decide

theorem witness_BeqAndBneBranchOnEquality : equalRegs.getReg 2 = equalRegs.getReg 3
    ∧ ¬ minusOneAndOne.getReg 2 = minusOneAndOne.getReg 3 := by decide

theorem witness_BltAndBgeBranchOnSignedOrder :
    (minusOneAndOne.getReg 2).toInt < (minusOneAndOne.getReg 3).toInt
    ∧ ¬ (equalRegs.getReg 2).toInt < (equalRegs.getReg 3).toInt
    ∧ (equalRegs.getReg 3).toInt ≤ (equalRegs.getReg 2).toInt
    ∧ ¬ (minusOneAndOne.getReg 3).toInt ≤ (minusOneAndOne.getReg 2).toInt := by decide

theorem witness_BltuAndBgeuBranchOnUnsignedOrder :
    (minusOneAndOne.getReg 3).toNat < (minusOneAndOne.getReg 2).toNat
    ∧ ¬ (equalRegs.getReg 2).toNat < (equalRegs.getReg 3).toNat
    ∧ (equalRegs.getReg 3).toNat ≤ (equalRegs.getReg 2).toNat
    ∧ ¬ (minusOneAndOne.getReg 2).toNat ≤ (minusOneAndOne.getReg 3).toNat := by decide

/-- The four kinds of effective address of an access of up to four bytes (register 1 or 2 plus 0): the
last word, a misaligned one, and the first one beyond the capacity. -/
abbrev edgeRegs : State := testState 0 0 [(1, 0x1FC), (2, 0x1FE), (3, 0x200)] dmemA

theorem witness_loads_and_stores : edgeRegs.dmem.wf
    ∧ (edgeRegs.getReg 1 + (0#12).signExtend 32).toNat % 4 = 0
    ∧ (edgeRegs.getReg 1 + (0#12).signExtend 32).toNat + 4 ≤ 4 * edgeRegs.cfg.dmemWords
    ∧ (edgeRegs.getReg 2 + (0#12).signExtend 32).toNat % 4 ≠ 0
    ∧ (edgeRegs.getReg 3 + (0#12).signExtend 32).toNat % 4 = 0
    ∧ (edgeRegs.getReg 3 + (0#12).signExtend 32).toNat + 1 > 4 * edgeRegs.cfg.dmemWords := by decide

theorem witness_LoadsSeeTheLittleEndianLayoutOfAStore : ∃ t : State, edgeRegs.dmem.wf
    ∧ (edgeRegs.getReg 1 + (0#12).signExtend 32).toNat % 4 = 0
    ∧ (edgeRegs.getReg 1 + (0#12).signExtend 32).toNat + 4 ≤ 4 * edgeRegs.cfg.dmemWords
    ∧ exec (.sw 2 1 0) edgeRegs = .next t
    ∧ t.getReg 1 + (0#12).signExtend 32 = edgeRegs.getReg 1 + (0#12).signExtend 32 :=
  ⟨_, by decide, by decide, by decide, rfl, rfl⟩

theorem witness_AssembledLinesAreWellFormed :
    assembleLine "beqz x5, 16".toList = .ok (some (.beq 5 0 16)) := by decide

theorem witness_PersistedProgramsLoadBack :
    (∃ s, launchSource (testLaunch ⟨1, 1, 0, .zero⟩ []) "nop".toList = .ok s)
    ∧ ∃ text, assembleText "nop".toList = (text, none)
      ∧ ∃ s, launchText (testLaunch ⟨1, 1, 0, .zero⟩ []) text = .ok s :=
  ⟨⟨_, rfl⟩, _, rfl, _, rfl⟩

theorem witness_ATextLaunchesTheWordsOfItsLines :
    (∃ s, launchText (testLaunch ⟨1, 1, 0, .zero⟩ []) "19\n".toList = .ok s)
    ∧ (textLines "19\n".toList).map loaderLine = [0x13#32].map .ok
    ∧ ∃ s, launch { testLaunch ⟨1, 1, 0, .zero⟩ [] with program := [0x13] } = .ok s :=
  ⟨⟨_, rfl⟩, by decide, _, rfl⟩

end Sys2Proof.Machine
end

section
/-! SUPPORT. Sign extension bit by bit (spec/00_scope.md R8), and the statement about it. -/

namespace Sys2Proof

/-- R8 as a rule on bits: below `w` a bit of `v` is kept, from `w` on it is bit `w-1`. A width of 0 has
no top bit to copy, hence `hpos`. -/
theorem getLsbD_sext32 (v : Word) {w k : Nat} (hpos : 1 ≤ w) (hk : k < 32) :
    (sext32 v w).getLsbD k = v.getLsbD (min k (w - 1)) := by
  rw [sext32, BitVec.getLsbD_signExtend]
  by_cases hkw : k < w
  · have hmin : min k (w - 1) = k := by omega
    simp [hk, hkw, hmin]
  · have hmin : min k (w - 1) = w - 1 := by omega
    have hw : 0 < w := hpos
    simp [hk, hkw, hmin, BitVec.msb_setWidth, hw]

/-- Extending again changes no bit, since capping the bit's index at `w-1` twice is capping it once. -/
theorem sext32_sext32 (v : Word) {w : Nat} (hpos : 1 ≤ w) :
    sext32 (sext32 v w) w = sext32 v w := by
  refine BitVec.eq_of_getLsbD_eq fun k hk => ?_
  have hmin : min k (w - 1) < 32 := by omega
  calc (sext32 (sext32 v w) w).getLsbD k
      = (sext32 v w).getLsbD (min k (w - 1)) := getLsbD_sext32 _ hpos hk
    _ = v.getLsbD (min (min k (w - 1)) (w - 1)) := getLsbD_sext32 v hpos hmin
    _ = v.getLsbD (min k (w - 1)) := by rw [min_assoc, min_self]
    _ = (sext32 v w).getLsbD k := (getLsbD_sext32 v hpos hk).symm

/-- Settles O29, by the rule on bits; the bound `w ≤ 32` is not needed. -/
theorem signExtensionCopiesTheTopBit : Obligations.SignExtensionCopiesTheTopBit :=
  fun v _ hpos _ => ⟨fun _ hk => getLsbD_sext32 v hpos hk, sext32_sext32 v hpos⟩

end Sys2Proof
end

section
/-! SUPPORT. The invariant of the state (spec/10_state.md R31, R33, R36, R37): each update of the state
that a step can make keeps it, so every step does, and so does every run from a launch that meets it. -/

namespace Sys2Proof.Machine

/-! ## What a step that gives a next state can have done -/

/-- The inversion of `step` from its result: a fault of the fetch, of the decoder or of the instruction
changes the status alone, and anything else is an outcome of the decoded instruction. -/
theorem raise_or_outcomes_of_step {s t : State} (h : step s = .next t) :
    (∃ reason, t = s.raise reason) ∨ Outcomes s t := by
  cases hs : s.status with
  | faulted reason => simp [step, hs] at h
  | running =>
    rcases step_outcome hs with ⟨reason, -, he⟩ | ⟨w, -, -, he⟩ | ⟨w, -, -, he⟩ |
      ⟨w, i, u, -, -, -, he, ho⟩ <;> obtain rfl := Host.Outcome.next.inj (h.symm.trans he)
    · exact .inl ⟨reason, rfl⟩
    · exact .inl ⟨_, rfl⟩
    · exact .inl ⟨_, rfl⟩
    · exact .inr ho

/-! ## The invariant and the updates of the state -/

/-- The next sequential instruction of an aligned PC is aligned; the sum's wrap at 2^32 keeps it so. -/
theorem aligned4_pcPlus4 {s : State} (h : aligned4 s.pc) : aligned4 s.pcPlus4 := by
  have hsum : s.pcPlus4.toNat = (s.pc.toNat + 4) % 2 ^ 32 := BitVec.toNat_add ..
  unfold aligned4 at h ⊢
  omega

section
variable {s t : State} (h : s.Inv)
include h

theorem State.Inv.raise (reason : FaultReason) : (s.raise reason).Inv := { h with }

theorem State.Inv.setPc {w : Word} (hw : aligned4 w) : (s.setPc w).Inv :=
  { h with pcAligned := hw }

theorem State.Inv.setReg (rd : RegIdx) (v : Word) : (s.setReg rd v).Inv where
  cfgOk := by simpa using h.cfgOk
  x0Zero := by simpa using h.x0Zero
  pcAligned := by simpa using h.pcAligned
  imemWf := by simpa using h.imemWf
  imemWithin := by simpa using h.imemWithin
  dmemWf := by simpa using h.dmemWf
  dmemWithin := by simpa using h.dmemWithin

theorem State.Inv.store (v : Word) {a n : Nat} (ha : a + n ≤ 4 * s.cfg.dmemWords) :
    ({ s with dmem := s.dmem.writeLE a v n } : State).Inv :=
  { h with
    dmemWf := Memory.wf_writeLE h.dmemWf a v n
    dmemWithin := Memory.within_writeLE h.dmemWithin v ha }

/-- No outcome of an instruction breaks the invariant: a new PC is the next word or a checked target, and
a store is made only within the capacity. -/
theorem State.Inv.of_outcomes (ho : Outcomes s t) : t.Inv := by
  have hnext : aligned4 s.pcPlus4 := aligned4_pcPlus4 h.pcAligned
  cases ho with
  | misalignedData _ _ => exact h.raise _
  | dataRange _ _ _ _ => exact h.raise _
  | target _ _ => exact h.raise _
  | seq rd v => exact (h.setReg rd v).setPc hnext
  | jump rd v _ ht => exact (h.setReg rd v).setPc ht
  | store _ v _ _ hin => exact (h.store v hin).setPc hnext

theorem State.Inv.of_step (hst : step s = .next t) : t.Inv := by
  rcases raise_or_outcomes_of_step hst with ⟨reason, rfl⟩ | ho
  · exact h.raise reason
  · exact h.of_outcomes ho

end

/-- Settles O20: a step raises a fault or commits an outcome, and each keeps the invariant. -/
theorem stepKeepsTheInvariant : Obligations.StepKeepsTheInvariant :=
  fun _ _ hinv hst => hinv.of_step hst

/-! ## Launches and runs -/

/-- A launch at an aligned RESET_PC starts in the invariant (R44, R450). -/
theorem State.Inv.of_launch {l : LaunchArgs} {s : State} (hpc : aligned4 l.cfg.resetPc)
    (h : launch l = .ok s) : s.Inv := by
  obtain ⟨hcfg, hlen, hdata, rfl⟩ := launch_eq_ok h
  have hfits : 0 + 4 * l.program.length ≤ 4 * l.cfg.imemWords := by omega
  exact {
    cfgOk := hcfg
    x0Zero := by simp
    pcAligned := hpc
    imemWf := loadProgram_wf l.program Memory.wf_nil 0
    imemWithin := loadProgram_within l.program (Memory.within_nil _) 0 hfits
    dmemWf := preloadBytes_wf l.data Memory.wf_nil
    dmemWithin := preloadBytes_within l.data (Memory.within_nil _) hdata }

/-- Settles O22, by induction on the run: the launch starts in the invariant and every step keeps it. -/
theorem reachableStatesMeetTheInvariant : Obligations.ReachableStatesMeetTheInvariant := by
  intro l s hpc hreach
  induction hreach with
  | start hl => exact .of_launch hpc hl
  | step _ hst ih => exact ih.of_step hst

/-! ## Register x0

R31's invariant is wanted from every launch, also one whose RESET_PC is not aligned, so it is proved
without `State.Inv`. -/

theorem slot_zero_of_outcomes {s t : State} (ho : Outcomes s t) : t.regs[0] = s.regs[0] := by
  cases ho with
  | misalignedData _ _ => rfl
  | dataRange _ _ _ _ => rfl
  | target _ _ => rfl
  | seq rd v => exact s.setReg_slot_zero rd v
  | jump rd v _ _ => exact s.setReg_slot_zero rd v
  | store _ _ _ _ _ => rfl

theorem slot_zero_of_step {s t : State} (h : step s = .next t) : t.regs[0] = s.regs[0] := by
  rcases raise_or_outcomes_of_step h with ⟨reason, rfl⟩ | ho
  · rfl
  · exact slot_zero_of_outcomes ho

theorem slot_zero_of_reachable {l : LaunchArgs} {s : State} (h : Reachable l s) : s.regs[0] = 0 := by
  induction h with
  | start hl =>
    obtain ⟨-, -, -, rfl⟩ := launch_eq_ok hl
    simp
  | step _ hst ih => exact (slot_zero_of_step hst).trans ih

/-- Settles O18: the read and the write by their laws, the slot by induction on the run. -/
theorem registerZeroIsHardWired : Obligations.RegisterZeroIsHardWired :=
  ⟨State.getReg_zero, State.setReg_zero, fun _ _ h => slot_zero_of_reachable h⟩

/-! ## The state a launch gives -/

/-- After a launch x0 reads as 0 and every other register as the value supplied for it (R44). -/
theorem getReg_of_launch {l : LaunchArgs} {s : State} (h : launch l = .ok s) (r : RegIdx) :
    s.getReg r = if r = 0 then 0 else l.regs[r] := by
  obtain ⟨-, -, -, rfl⟩ := launch_eq_ok h
  by_cases hr : r = 0
  · simp [hr]
  · have hval : ¬ 0 = r.val := fun h0 => hr (Fin.ext h0.symm)
    simp [State.getReg, hr, hval]

/-- Settles O23: the laws of loading and preloading, from the empty memory, which reads as 0. -/
theorem launchStateHoldsWhatTheLaunchSupplies :
    Obligations.LaunchStateHoldsWhatTheLaunchSupplies := by
  intro l s h
  refine ⟨getReg_of_launch h, ?_⟩
  obtain ⟨-, -, -, rfl⟩ := launch_eq_ok h
  refine ⟨rfl, rfl, rfl, fun i hi k hk => ?_, fun a ha => ?_, fun hnd c hc => ?_, fun a ha => ?_⟩
  · simpa [byteOf] using loadProgram_read l.program Memory.wf_nil 0 i k hi hk
  · exact loadProgram_read_outside l.program Memory.wf_nil 0 a (.inr (by omega))
  · exact preloadBytes_read l.data Memory.wf_nil hnd hc
  · exact preloadBytes_read_outside l.data Memory.wf_nil ha

end Sys2Proof.Machine
end

section
/-! SUPPORT. The InstructionMemory (spec/20_memory.md R70, R76): no step writes it or the parameters, and
what a fetch does from a Running state. -/

namespace Sys2Proof.Machine

/-! ## The InstructionMemory and the parameters never change -/

theorem imem_cfg_of_outcomes {s t : State} (ho : Outcomes s t) : t.imem = s.imem ∧ t.cfg = s.cfg := by
  cases ho with
  | misalignedData _ _ => exact ⟨rfl, rfl⟩
  | dataRange _ _ _ _ => exact ⟨rfl, rfl⟩
  | target _ _ => exact ⟨rfl, rfl⟩
  | seq rd v => exact ⟨s.setReg_imem rd v, s.setReg_cfg rd v⟩
  | jump rd v _ _ => exact ⟨s.setReg_imem rd v, s.setReg_cfg rd v⟩
  | store _ _ _ _ _ => exact ⟨rfl, rfl⟩

theorem imem_cfg_of_step {s t : State} (h : step s = .next t) : t.imem = s.imem ∧ t.cfg = s.cfg := by
  rcases raise_or_outcomes_of_step h with ⟨reason, rfl⟩ | ho
  · exact ⟨rfl, rfl⟩
  · exact imem_cfg_of_outcomes ho

/-- A run of `n + 1` steps that gives a state is a step and then a run of `n`. -/
theorem core_run_succ {n : Nat} {s t : State} (h : Sys2Proof.core.run (n + 1) s = .next t) :
    ∃ u : State, step s = .next u ∧ Sys2Proof.core.run n u = .next t := by
  simp only [Host.Core.run] at h
  split at h
  · next u hu => exact ⟨u, hu, h⟩
  · cases h
  · cases h

theorem imem_cfg_of_run {n : Nat} {s t : State} (h : Sys2Proof.core.run n s = .next t) :
    t.imem = s.imem ∧ t.cfg = s.cfg := by
  induction n generalizing s with
  | zero => obtain rfl := Host.Outcome.next.inj h; exact ⟨rfl, rfl⟩
  | succ n ih =>
    obtain ⟨u, hstep, hrun⟩ := core_run_succ h
    obtain ⟨himem, hcfg⟩ := imem_cfg_of_step hstep
    obtain ⟨himem', hcfg'⟩ := ih hrun
    exact ⟨himem'.trans himem, hcfg'.trans hcfg⟩

/-- Settles O16: a step by the inversion of `step`, a run by induction on its length. -/
theorem instructionMemoryNeverChanges : Obligations.InstructionMemoryNeverChanges :=
  ⟨fun _ _ h => imem_cfg_of_step h, fun _ _ _ h => imem_cfg_of_run h⟩

/-! ## The fetch -/

/-- A fetch fault is the step's fault (R404). -/
theorem faultsWith_of_fetch_error {s : State} {reason : FaultReason} (hs : s.status = .running)
    (hf : fetch s = .error reason) : FaultsWith (step s) s reason :=
  ⟨s.raise reason, by simp [step_of_running hs, runCycle, hf, raiseFault], rfl, rfl, rfl, rfl, rfl, rfl⟩

/-- A Running state with an aligned PC inside the InstructionMemory fetches the word of the four bytes
there. -/
theorem fetches_readLE {s : State} (hs : s.status = .running) (ha : s.pc.toNat % 4 = 0)
    (hr : s.pc.toNat + 4 ≤ 4 * s.cfg.imemWords) : Fetches s (s.imem.readLE s.pc.toNat .word) :=
  ⟨hs, ha, hr, fun _ hk => (byteOf_readLE_word s.imem s.pc.toNat hk).symm⟩

/-- No instruction raises a fetch fault. -/
theorem status_ne_fetchMisaligned_of_outcomes {s t : State} (hs : s.status = .running)
    (ho : Outcomes s t) (a : Word) : t.status ≠ .faulted (.fetchMisaligned a) := by
  cases ho with
  | misalignedData _ _ => simp
  | dataRange _ _ _ _ => simp
  | target _ _ => simp
  | seq _ _ => simp [hs]
  | jump _ _ _ _ => simp [hs]
  | store _ _ _ _ _ => simp [hs]

/-- A step into FetchMisaligned starts at a misaligned PC. -/
theorem not_aligned4_of_fetchMisaligned {s t : State} {a : Word} (h : step s = .next t)
    (ht : t.status = .faulted (.fetchMisaligned a)) : ¬ aligned4 s.pc := by
  cases hs : s.status with
  | faulted reason => simp [step, hs] at h
  | running =>
    rcases step_outcome hs with ⟨reason, hf, he⟩ | ⟨w, -, -, he⟩ | ⟨w, -, -, he⟩ |
      ⟨w, i, u, -, -, -, he, ho⟩ <;> obtain rfl := Host.Outcome.next.inj (h.symm.trans he)
    · rcases fetch_cases s with ⟨hn, -⟩ | ⟨-, -, hf'⟩ | ⟨-, -, hf'⟩
      · exact hn
      · obtain rfl := Except.error.inj (hf.symm.trans hf')
        simp at ht
      · cases hf.symm.trans hf'
    · simp at ht
    · simp at ht
    · exact absurd ht (status_ne_fetchMisaligned_of_outcomes hs ho a)

/-- Settles O13: the cases of `fetch`, and the PC's alignment on every reachable state. -/
theorem fetchFaultsOrReadsTheWordAtPc : Obligations.FetchFaultsOrReadsTheWordAtPc := by
  refine ⟨fun s hs => ⟨fun hn => ?_, fun ha hr => ?_, fun ha hr => ?_⟩,
    fun l s t a hpc hreach hst ht => ?_⟩
  · rcases fetch_cases s with ⟨-, hf⟩ | ⟨ha, -⟩ | ⟨ha, -⟩
    · exact faultsWith_of_fetch_error hs hf
    · exact absurd ha hn
    · exact absurd ha hn
  · rcases fetch_cases s with ⟨hn, -⟩ | ⟨-, -, hf⟩ | ⟨-, hin, -⟩
    · exact absurd ha hn
    · exact faultsWith_of_fetch_error hs hf
    · omega
  · have hw := fetches_readLE hs ha hr
    exact ⟨_, hw, fetch_of_fetches hw⟩
  · have hinv : s.Inv := reachableStatesMeetTheInvariant l s hpc hreach
    exact not_aligned4_of_fetchMisaligned hst ht hinv.pcAligned

end Sys2Proof.Machine
end

section
/-! SUPPORT. Which instructions use the DataMemory (spec/20_memory.md R65): loads read it, stores write
it, and any other step does neither. A word is told to be a load or a store by its opcode, so first: an
instruction has the opcode of the word it was decoded from. -/

namespace Sys2Proof

/-! ## The opcode of a decoded instruction (R121)

The opcode is the low field of every format's encoding, whence `extractLsb'_low`. -/

section
variable {w : Word} {i : Instr}

theorem opcodeOf_encode_of_decodeR (h : decodeR w = .ok i) : opcodeOf (encode i) = 0x33#7 := by
  simp only [decodeR] at h
  repeat' split at h
  all_goals cases h <;> exact extractLsb'_low _ _

theorem opcodeOf_encode_of_decodeI (h : decodeI w = .ok i) : opcodeOf (encode i) = 0x13#7 := by
  simp only [decodeI] at h
  repeat' split at h
  all_goals cases h <;> exact extractLsb'_low _ _

theorem opcodeOf_encode_of_decodeLoad (h : decodeLoad w = .ok i) : opcodeOf (encode i) = 0x03#7 := by
  unfold decodeLoad at h
  split at h <;> cases h <;> exact extractLsb'_low _ _

theorem opcodeOf_encode_of_decodeJalr (h : decodeJalr w = .ok i) : opcodeOf (encode i) = 0x67#7 := by
  unfold decodeJalr at h
  split at h <;> cases h
  exact extractLsb'_low _ _

theorem opcodeOf_encode_of_decodeStore (h : decodeStore w = .ok i) : opcodeOf (encode i) = 0x23#7 := by
  unfold decodeStore at h
  split at h <;> cases h <;> exact extractLsb'_low _ _

theorem opcodeOf_encode_of_decodeBranch (h : decodeBranch w = .ok i) :
    opcodeOf (encode i) = 0x63#7 := by
  unfold decodeBranch at h
  split at h <;> cases h <;> exact extractLsb'_low _ _

/-- What a word decodes to has the word's opcode. -/
theorem opcodeOf_encode_of_decode (h : decode w = .ok i) : opcodeOf (encode i) = opcodeOf w := by
  unfold decode at h
  split at h
  · next hop => rw [hop, opcodeOf_encode_of_decodeR h]
  · next hop => rw [hop, opcodeOf_encode_of_decodeI h]
  · next hop => rw [hop, opcodeOf_encode_of_decodeLoad h]
  · next hop => rw [hop, opcodeOf_encode_of_decodeJalr h]
  · next hop => rw [hop, opcodeOf_encode_of_decodeStore h]
  · next hop => rw [hop, opcodeOf_encode_of_decodeBranch h]
  · next hop => cases h; exact (opcodeOf_encodeUJ ..).trans hop.symm
  · next hop => cases h; exact (opcodeOf_encodeU ..).trans hop.symm
  · next hop => cases h; exact (opcodeOf_encodeU ..).trans hop.symm
  · cases h

end

end Sys2Proof

namespace Sys2Proof.Machine

/-! ## The three ways of using the DataMemory

Each compares the outcome of `f` at `s` with its outcomes at the states that differ from `s` in the
DataMemory alone; `f` is a step, an instruction's meaning or one of the commits. -/

/-- R62, R63: the status is not one of the two data faults. -/
def NoDataFault (st : Status) : Prop :=
  ∀ ea, st ≠ .faulted (.dataMisaligned ea) ∧ st ≠ .faulted (.dataOutOfRange ea)

/-- `f` neither reads nor writes the DataMemory at `s`, whatever it holds, and raises no data fault. -/
def IgnoresData (s : State) (f : State → Result) : Prop :=
  ∃ t : State, (NoDataFault s.status → NoDataFault t.status) ∧
    ∀ m : Memory, f { s with dmem := m } = .next { t with dmem := m }

/-- `f` does not write the DataMemory at `s`. -/
def KeepsData (s : State) (f : State → Result) : Prop :=
  ∃ t : State, f s = .next t ∧ t.dmem = s.dmem

/-- `f` does not read the DataMemory at `s`: what it held shows in the new DataMemory only. -/
def ReadsNoData (s : State) (f : State → Result) : Prop :=
  ∃ t : State, ∀ m : Memory, ∃ m' : Memory, f { s with dmem := m } = .next { t with dmem := m' }

/-- How a word or instruction of opcode `op` and meaning `f` may use the DataMemory at `s` (R65). -/
inductive DataUse (op : BitVec 7) (s : State) (f : State → Result) : Prop
  | none : IgnoresData s f → DataUse op s f
  | load : op = 0x03 → KeepsData s f → DataUse op s f
  | store : op = 0x23 → ReadsNoData s f → DataUse op s f

theorem IgnoresData.keepsData {s : State} {f : State → Result} (h : IgnoresData s f) : KeepsData s f := by
  obtain ⟨t, -, ht⟩ := h
  exact ⟨_, ht s.dmem, rfl⟩

theorem IgnoresData.readsNoData {s : State} {f : State → Result} (h : IgnoresData s f) :
    ReadsNoData s f := by
  obtain ⟨t, -, ht⟩ := h
  exact ⟨t, fun m => ⟨m, ht m⟩⟩

/-- Meanings that agree at `s`, whatever its DataMemory holds, use it alike. -/
theorem DataUse.congr {op : BitVec 7} {s : State} {f g : State → Result} (h : DataUse op s f)
    (hfg : ∀ m : Memory, g { s with dmem := m } = f { s with dmem := m }) : DataUse op s g := by
  cases h with
  | none h =>
    obtain ⟨t, hst, ht⟩ := h
    exact .none ⟨t, hst, fun m => (hfg m).trans (ht m)⟩
  | load hop h =>
    obtain ⟨t, ht, hd⟩ := h
    exact .load hop ⟨t, (hfg s.dmem).trans ht, hd⟩
  | store hop h =>
    obtain ⟨t, ht⟩ := h
    refine .store hop ⟨t, fun m => ?_⟩
    obtain ⟨m', hm⟩ := ht m
    exact ⟨m', (hfg m).trans hm⟩

/-! ## Faults and commits

The values, targets and addresses that a commit is given may be computed from the state; the hypotheses
say that the DataMemory does not enter. -/

/-- A register write and a replacement of the DataMemory commute. -/
theorem State.setReg_dmem_comm (s : State) (rd : RegIdx) (v : Word) (m : Memory) :
    ({ s with dmem := m } : State).setReg rd v = { s.setReg rd v with dmem := m } := by
  unfold State.setReg
  split <;> rfl

section
variable {s : State} {v : State → Word}

theorem raiseFault_ignoresData {reason : FaultReason} (h : NoDataFault (.faulted reason)) :
    IgnoresData s (raiseFault reason) :=
  ⟨s.raise reason, fun _ => h, fun _ => rfl⟩

theorem noDataFault_targetMisaligned (target : Word) :
    NoDataFault (.faulted (.targetMisaligned target)) := by simp [NoDataFault]

/-- A new PC and a register write: what a register commit and a jump leave. -/
theorem setReg_setPc_ignoresData (rd : RegIdx) {w : State → Word}
    (hv : ∀ m, v { s with dmem := m } = v s) (hw : ∀ m, w { s with dmem := m } = w s) :
    IgnoresData s fun s => .next ((s.setReg rd (v s)).setPc (w s)) :=
  ⟨(s.setReg rd (v s)).setPc (w s), by simp,
    fun m => by simp only [hv, hw, State.setReg_dmem_comm]; rfl⟩

theorem commitReg_ignoresData {rd : RegIdx} (hv : ∀ m, v { s with dmem := m } = v s) :
    IgnoresData s fun s => commitReg rd (v s) s :=
  setReg_setPc_ignoresData rd hv fun _ => rfl

theorem commitJump_ignoresData {rd : RegIdx} (hv : ∀ m, v { s with dmem := m } = v s) :
    IgnoresData s fun s => commitJump rd (v s) s := by
  by_cases ha : aligned4 (v s)
  · obtain ⟨t, hst, ht⟩ := setReg_setPc_ignoresData rd (v := State.pcPlus4) (fun _ => rfl) hv
    exact ⟨t, hst, fun m => by rw [← ht]; simp only [commitJump, hv, if_pos ha]⟩
  · obtain ⟨t, hst, ht⟩ := raiseFault_ignoresData (s := s) (noDataFault_targetMisaligned (v s))
    exact ⟨t, hst, fun m => by rw [← ht]; simp only [commitJump, hv, if_neg ha]⟩

theorem commitBranch_ignoresData {taken : State → Bool} {off : BitVec 13}
    (htaken : ∀ m, taken { s with dmem := m } = taken s) :
    IgnoresData s fun s => commitBranch (taken s) off s := by
  cases ht : taken s with
  | false => exact ⟨s.setPc s.pcPlus4, by simp, fun m => by simp only [htaken, ht]; rfl⟩
  | true =>
    by_cases ha : aligned4 (s.pc + immSB off)
    · exact ⟨s.setPc (s.pc + immSB off), by simp,
        fun m => by simp only [htaken, ht, commitBranch, if_true, if_pos ha]; rfl⟩
    · exact ⟨s.raise _, fun _ => noDataFault_targetMisaligned _,
        fun m => by simp only [htaken, ht, commitBranch, if_true, if_neg ha]; rfl⟩

theorem commitLoad_keepsData {rd : RegIdx} {size : AccessSize} {uns : Bool} {ea : State → Word} :
    KeepsData s fun s => commitLoad rd (ea s) size uns s := by
  cases hm : memRead s (ea s) size with
  | error reason => exact ⟨s.raise reason, by simp only [commitLoad, hm]; rfl, rfl⟩
  | ok m => exact ⟨(s.setReg rd _).setPc s.pcPlus4, by simp only [commitLoad, hm]; rfl, by simp⟩

theorem commitStore_readsNoData {size : AccessSize} {ea : State → Word}
    (hea : ∀ m, ea { s with dmem := m } = ea s) (hv : ∀ m, v { s with dmem := m } = v s) :
    ReadsNoData s fun s => commitStore (ea s) size (v s) s := by
  have hfault : ∀ m, dataFault { s with dmem := m } (ea s) size = dataFault s (ea s) size := fun _ => rfl
  cases hf : dataFault s (ea s) size with
  | none => exact ⟨s.setPc s.pcPlus4, fun m => ⟨_, by
      simp only [commitStore, memWrite, hea, hv, hfault, hf]; rfl⟩⟩
  | some reason => exact ⟨s.raise reason, fun m => ⟨m, by
      simp only [commitStore, memWrite, hea, hfault, hf]; rfl⟩⟩

end

/-! ## Instructions and steps -/

/-- R65 for the meaning of every instruction, by its commit. -/
theorem exec_dataUse (i : Instr) (s : State) : DataUse (opcodeOf (encode i)) s (exec i) := by
  cases i with
  | add _ _ _ => exact .none (commitReg_ignoresData fun _ => rfl)
  | sub _ _ _ => exact .none (commitReg_ignoresData fun _ => rfl)
  | sll _ _ _ => exact .none (commitReg_ignoresData fun _ => rfl)
  | slt _ _ _ => exact .none (commitReg_ignoresData fun _ => rfl)
  | sltu _ _ _ => exact .none (commitReg_ignoresData fun _ => rfl)
  | xor _ _ _ => exact .none (commitReg_ignoresData fun _ => rfl)
  | srl _ _ _ => exact .none (commitReg_ignoresData fun _ => rfl)
  | sra _ _ _ => exact .none (commitReg_ignoresData fun _ => rfl)
  | or _ _ _ => exact .none (commitReg_ignoresData fun _ => rfl)
  | and _ _ _ => exact .none (commitReg_ignoresData fun _ => rfl)
  | addi _ _ _ => exact .none (commitReg_ignoresData fun _ => rfl)
  | slti _ _ _ => exact .none (commitReg_ignoresData fun _ => rfl)
  | sltiu _ _ _ => exact .none (commitReg_ignoresData fun _ => rfl)
  | xori _ _ _ => exact .none (commitReg_ignoresData fun _ => rfl)
  | ori _ _ _ => exact .none (commitReg_ignoresData fun _ => rfl)
  | andi _ _ _ => exact .none (commitReg_ignoresData fun _ => rfl)
  | slli _ _ _ => exact .none (commitReg_ignoresData fun _ => rfl)
  | srli _ _ _ => exact .none (commitReg_ignoresData fun _ => rfl)
  | srai _ _ _ => exact .none (commitReg_ignoresData fun _ => rfl)
  | lui _ _ => exact .none (commitReg_ignoresData fun _ => rfl)
  | auipc _ _ => exact .none (commitReg_ignoresData fun _ => rfl)
  | jal _ _ => exact .none (commitJump_ignoresData fun _ => rfl)
  | jalr _ _ _ => exact .none (commitJump_ignoresData fun _ => rfl)
  | beq _ _ _ => exact .none (commitBranch_ignoresData fun _ => rfl)
  | bne _ _ _ => exact .none (commitBranch_ignoresData fun _ => rfl)
  | blt _ _ _ => exact .none (commitBranch_ignoresData fun _ => rfl)
  | bge _ _ _ => exact .none (commitBranch_ignoresData fun _ => rfl)
  | bltu _ _ _ => exact .none (commitBranch_ignoresData fun _ => rfl)
  | bgeu _ _ _ => exact .none (commitBranch_ignoresData fun _ => rfl)
  | lb _ _ _ => exact .load (opcodeOf_encodeI ..) commitLoad_keepsData
  | lh _ _ _ => exact .load (opcodeOf_encodeI ..) commitLoad_keepsData
  | lw _ _ _ => exact .load (opcodeOf_encodeI ..) commitLoad_keepsData
  | lbu _ _ _ => exact .load (opcodeOf_encodeI ..) commitLoad_keepsData
  | lhu _ _ _ => exact .load (opcodeOf_encodeI ..) commitLoad_keepsData
  | sb _ _ _ => exact .store (opcodeOf_encodeS ..) (commitStore_readsNoData (fun _ => rfl) fun _ => rfl)
  | sh _ _ _ => exact .store (opcodeOf_encodeS ..) (commitStore_readsNoData (fun _ => rfl) fun _ => rfl)
  | sw _ _ _ => exact .store (opcodeOf_encodeS ..) (commitStore_readsNoData (fun _ => rfl) fun _ => rfl)

/-- The step of a state that fetches `w`, at every content of its DataMemory: the fetch does not look
at it. -/
theorem step_dmem_of_fetches {s : State} {w : Word} (h : Fetches s w) (m : Memory) :
    fetch { s with dmem := m } = .ok w ∧ step { s with dmem := m } = runCycle { s with dmem := m } :=
  ⟨fetch_of_fetches (s := { s with dmem := m }) h, step_of_running (s := { s with dmem := m }) h.1⟩

/-- R65 for the step of every fetched word. -/
theorem step_dataUse {s : State} {w : Word} (h : Fetches s w) : DataUse (opcodeOf w) s step := by
  cases hd : decode w with
  | illegalOpcode =>
    have hfault := raiseFault_ignoresData (s := s) (reason := .illegalOpcode w) (by simp [NoDataFault])
    refine (DataUse.none hfault).congr fun m => ?_
    obtain ⟨hf, hst⟩ := step_dmem_of_fetches h m
    simp [hst, runCycle, hf, hd]
  | unmappedFunct =>
    have hfault := raiseFault_ignoresData (s := s) (reason := .unmappedFunct w) (by simp [NoDataFault])
    refine (DataUse.none hfault).congr fun m => ?_
    obtain ⟨hf, hst⟩ := step_dmem_of_fetches h m
    simp [hst, runCycle, hf, hd]
  | ok i =>
    rw [← opcodeOf_encode_of_decode hd]
    refine (exec_dataUse i s).congr fun m => ?_
    obtain ⟨hf, hst⟩ := step_dmem_of_fetches h m
    simp [hst, runCycle, hf, hd]

/-- Settles O15: every step keeps, does not read, or ignores the DataMemory, as `DataUse` says. -/
theorem onlyLoadsReadAndOnlyStoresWriteData : Obligations.OnlyLoadsReadAndOnlyStoresWriteData := by
  intro s t w hfetch hst
  have hkeeps : KeepsData s step → t.dmem = s.dmem := by
    rintro ⟨u, hu, hd⟩
    obtain rfl := Host.Outcome.next.inj (hst.symm.trans hu)
    exact hd
  have hreads : ReadsNoData s step →
      ∀ m : Memory, ∃ m' : Memory, step { s with dmem := m } = .next { t with dmem := m' } := by
    rintro ⟨u, hu⟩ m
    obtain ⟨m₀, h₀⟩ := hu s.dmem
    obtain rfl := Host.Outcome.next.inj (hst.symm.trans h₀)
    exact hu m
  cases step_dataUse hfetch with
  | none hnone =>
    refine ⟨fun _ => hkeeps hnone.keepsData, fun _ => hreads hnone.readsNoData, fun _ _ => ?_⟩
    obtain ⟨u, hfault, hu⟩ := hnone
    obtain rfl := Host.Outcome.next.inj (hst.symm.trans (hu s.dmem))
    exact hfault (by simp [NoDataFault, hfetch.1])
  | load hop hk => exact ⟨fun _ => hkeeps hk, fun h => absurd hop h, fun h => absurd hop h⟩
  | store hop hr => exact ⟨fun h => absurd hop h, fun _ => hreads hr, fun _ h => absurd hop h⟩

end Sys2Proof.Machine
end

section
/-! SUPPORT. The ports that a cycle drives the DataMemory with (spec/20_memory.md R60, R65, R68): which
signals the ControlUnit gives the access, and that the access has its enable on. -/

namespace Sys2Proof.Machine

/-! ## The signals of a data access (R127, R128, R130, R131) -/

/-- What a word that the ControlUnit accepts has, and its bundle. -/
theorem controlUnit_eq_ok {lui : LuiAOperand} {w : Word} {fmt : Format} {sig : ControlSignals}
    (h : controlUnit lui w = .ok fmt sig) :
    formatOf (opcodeOf w) = some fmt ∧ functMapped (opcodeOf w) (funct3Of w) (funct7Of w) = true ∧
      ∃ alu, sig = signalsFor lui fmt (opcodeOf w) (funct3Of w) alu := by
  unfold controlUnit at h
  split at h
  · cases h
  · next hfmt =>
    split at h
    · next hmap =>
      split at h <;> cases h
      exact ⟨hfmt, hmap, _, rfl⟩
    · cases h

/-- The S format is the stores' opcode (R121). -/
theorem formatOf_eq_s {op : BitVec 7} : formatOf op = some .s ↔ op = 0x23 := by
  revert op
  decide

/-- The funct3 of a load or a store that is mapped gives a size (R127, R128). -/
theorem sizeOf3_isSome_of_functMapped {op : BitVec 7} {f3 : BitVec 3} {f7 : BitVec 7}
    (h : functMapped op f3 f7 = true) (hop : op = 0x03 ∨ op = 0x23) : (sizeOf3 f3).isSome = true := by
  simp only [functMapped, Bool.and_eq_true] at h
  obtain ⟨⟨⟨-, hload⟩, hstore⟩, -⟩ := h
  rcases hop with rfl | rfl
  · simpa using hload
  · simp only [bne_self_eq_false, Bool.false_or, Bool.and_eq_true] at hstore
    exact hstore.1

@[simp] theorem resolvePcSel_memRW (fmt : Format) (f3 : BitVec 3) (c : Comparison) (sig : ControlSignals) :
    (resolvePcSel fmt f3 c sig).memRW = sig.memRW := by
  unfold resolvePcSel
  split
  · split <;> rfl
  · rfl

@[simp] theorem resolvePcSel_loadStoreSize (fmt : Format) (f3 : BitVec 3) (c : Comparison)
    (sig : ControlSignals) : (resolvePcSel fmt f3 c sig).loadStoreSize = sig.loadStoreSize := by
  unfold resolvePcSel
  split
  · split <;> rfl
  · rfl

section
variable {lui : LuiAOperand} {w : Word} {fmt : Format} {sig : ControlSignals}
  (h : controlUnit lui w = .ok fmt sig)
include h

/-- memRW is WRITE for the stores and no other word (R130). -/
theorem memRW_eq_write : sig.memRW = .write ↔ opcodeOf w = 0x23 := by
  obtain ⟨hfmt, -, alu, rfl⟩ := controlUnit_eq_ok h
  rw [← formatOf_eq_s, hfmt, Option.some.injEq]
  simp only [signalsFor]
  split <;> simp [*]

/-- A loadStoreSize is given for the loads and the stores and no other word (R131). -/
theorem loadStoreSize_isSome :
    sig.loadStoreSize.isSome = true ↔ opcodeOf w = 0x03 ∨ opcodeOf w = 0x23 := by
  obtain ⟨-, hmap, alu, rfl⟩ := controlUnit_eq_ok h
  simp only [signalsFor]
  split
  · next hop => exact iff_of_true (sizeOf3_isSome_of_functMapped hmap hop) hop
  · next hop => exact iff_of_false (by simp) hop

end

/-! ## The ports and the access -/

/-- The Datapath issues an access when an enable is on and a size is given (R60, R65). -/
theorem dataPort_eq (op : BitVec 7) (sig : ControlSignals) (r v2 : Word) :
    dataPort op sig r v2 =
      if op = 0x03 ∨ sig.memRW = .write then
        sig.loadStoreSize.map fun size => ⟨r, size, op == 0x03, sig.memRW == .write, v2⟩
      else none := by
  unfold dataPort
  cases sig.loadStoreSize <;> simp

theorem dataMemory_read_ne_denied {s : State} {p : MemPort} (h : p.readEnable = true) :
    dataMemory s .read p ≠ .denied := by
  rw [dataMemory_read h]
  split <;> simp

theorem dataMemory_write_ne_denied {s : State} {p : MemPort} (h : p.writeEnable = true) :
    dataMemory s .write p ≠ .denied := by
  rw [dataMemory_write h]
  split <;> simp

/-- Settles O31: the signals say which words make an access, and the enable of its direction is on. -/
theorem cycleDrivesTheDataMemoryPorts : Obligations.CycleDrivesTheDataMemoryPorts := by
  rintro s lui w r v2 fmt c sig0 sig hcu rfl
  have hwrite := memRW_eq_write hcu
  have hsize := loadStoreSize_isSome hcu
  rw [dataPort_eq, resolvePcSel_memRW, resolvePcSel_loadStoreSize]
  by_cases hop : opcodeOf w = 0x03 ∨ opcodeOf w = 0x23
  · obtain ⟨size, hsz⟩ := Option.isSome_iff_exists.1 (hsize.2 hop)
    rw [if_pos (hop.imp_right hwrite.2), hsz]
    refine ⟨iff_of_true rfl hop, fun p hp => ?_⟩
    obtain rfl := Option.some.inj hp
    refine ⟨rfl, rfl, rfl, by simp, by simp [hwrite], by simp, ?_⟩
    cases hrw : sig0.memRW with
    | read =>
      have hload : opcodeOf w = 0x03 := hop.resolve_right fun h => by simp [hwrite.2 h] at hrw
      exact dataMemory_read_ne_denied (by simp [hload])
    | write => exact dataMemory_write_ne_denied (by simp)
  · rw [if_neg fun h => hop (h.imp_right hwrite.1)]
    exact ⟨iff_of_false (by simp) hop, by simp⟩

end Sys2Proof.Machine
end

section
/-! SUPPORT. A load after a store of a word (spec/20_memory.md R61, R73): what stands in the DataMemory
after the store, what each width reads of it, and what a load does with what it reads. -/

namespace Sys2Proof.Machine

/-! ## A read of a stored word -/

/-- The low byte of a Word. -/
theorem byteOf_zero (v : Word) : byteOf v 0 = v.setWidth 8 :=
  (BitVec.setWidth_eq_extractLsb' (by decide)).symm

/-- The low two bytes of a Word, put together. -/
theorem bytes_append_low (v : Word) : byteOf v 1 ++ byteOf v 0 = v.setWidth 16 :=
  (BitVec.extractLsb'_append_extractLsb'_eq_extractLsb' rfl).trans
    (BitVec.setWidth_eq_extractLsb' (by decide)).symm

/-- A read of the width `size` where a word was stored gives the word's low bytes (R61). -/
theorem Memory.readLE_writeLE_word {m : Memory} (hm : m.wf) (a : Nat) (v : Word) (size : AccessSize) :
    (m.writeLE a v 4).readLE a size = zext32 v (8 * size.bytes) := by
  have hbyte : ∀ k, k < 4 → (m.writeLE a v 4).read (a + k) = byteOf v k := fun k hk => by
    rw [Memory.read_writeLE hm, if_pos (by omega), Nat.add_sub_cancel_left]
  have hbyte0 : (m.writeLE a v 4).read a = byteOf v 0 := hbyte 0 (by decide)
  cases size with
  | byte => simp only [Memory.readLE, hbyte0, byteOf_zero, zext32, AccessSize.bytes]
  | half =>
    rw [Memory.readLE, hbyte0, hbyte 1 (by decide)]
    exact congrArg (BitVec.setWidth 32) (bytes_append_low v)
  | word =>
    rw [Memory.readLE_word hbyte]
    simp [zext32, AccessSize.bytes]

/-- Load extension looks at the low bytes only (R310). -/
theorem extendLoad_zext32 (size : AccessSize) (uns : Bool) (v : Word) :
    extendLoad size uns (zext32 v (8 * size.bytes)) = extendLoad size uns v := by
  have hwidth : 8 * size.bytes ≤ 32 := by cases size <;> decide
  have hlow : (zext32 v (8 * size.bytes)).setWidth (8 * size.bytes) = v.setWidth (8 * size.bytes) := by
    rw [zext32, BitVec.setWidth_setWidth_of_le _ hwidth, BitVec.setWidth_eq]
  simp only [extendLoad, zext32, sext32] at hlow ⊢
  rw [hlow]

/-- A word is not extended. -/
theorem extendLoad_word (uns : Bool) (v : Word) : extendLoad .word uns v = v := by
  cases uns <;> simp [extendLoad, zext32, sext32, AccessSize.bytes]

/-! ## The load and the store -/

/-- A register commit is a writeback and its frame (R213). -/
theorem commitReg_writesBack (rd : RegIdx) (v : Word) (s : State) :
    WritesBack (commitReg rd v s) s rd v :=
  ⟨(s.setReg rd v).setPc s.pcPlus4, rfl, fun r => s.getReg_setReg rd r v, rfl, fun _ => by simp,
    fun _ => by simp, by simp, by simp⟩

/-- A load that does not fault writes back what it reads, extended (R310, R316). -/
theorem commitLoad_writesBack {s : State} {ea : Word} {size : AccessSize} (rd : RegIdx) (uns : Bool)
    (h : dataFault s ea size = none) :
    WritesBack (commitLoad rd ea size uns s) s rd (extendLoad size uns (s.dmem.readLE ea.toNat size)) := by
  simp only [commitLoad, memRead, h]
  exact commitReg_writesBack rd _ s

/-- What a store that does not fault leaves (R320). -/
theorem commitStore_eq_next {s t : State} {ea v : Word} {size : AccessSize} (h : dataFault s ea size = none)
    (ht : commitStore ea size v s = .next t) :
    t.dmem = s.dmem.writeLE ea.toNat v size.bytes ∧ t.cfg = s.cfg := by
  simp only [commitStore, memWrite, h] at ht
  obtain rfl := Host.Outcome.next.inj ht
  exact ⟨rfl, rfl⟩

/-- After a store of a word, a load of any width at the same address writes back the word, extended. -/
theorem commitLoad_writesBack_of_commitStore {s t : State} {ea v : Word} (hwf : s.dmem.wf)
    (h : dataFault s ea .word = none) (hst : commitStore ea .word v s = .next t) (rd : RegIdx)
    (size : AccessSize) (uns : Bool) :
    WritesBack (commitLoad rd ea size uns t) t rd (extendLoad size uns v) := by
  obtain ⟨hdmem, hcfg⟩ := commitStore_eq_next h hst
  obtain ⟨ha, hr⟩ := dataFault_eq_none.1 h
  have hbytes : size.bytes ≤ AccessSize.word.bytes := by cases size <;> decide
  have hload : dataFault t ea size = none := dataFault_eq_none.2 ⟨ha, by rw [hcfg]; omega⟩
  have hread : t.dmem.readLE ea.toNat size = zext32 v (8 * size.bytes) := by
    rw [hdmem]
    exact Memory.readLE_writeLE_word hwf ea.toNat v size
  rw [← extendLoad_zext32 size uns v, ← hread]
  exact commitLoad_writesBack rd uns hload

/-- Settles O51: each width is the one rule on loads after a store, at the load's own extension; the low
`n` bits that it extends are by definition `extractLsb' 0 n`. -/
theorem loadsSeeTheLittleEndianLayoutOfAStore : Obligations.LoadsSeeTheLittleEndianLayoutOfAStore := by
  intro s t rs2 rs1 rd base imm off hwf ha hr hst hbase
  have hload := commitLoad_writesBack_of_commitStore hwf (dataFault_eq_none.2 ⟨ha, hr⟩) hst rd
  rw [← hbase] at hload
  have hlw := hload .word false
  rw [extendLoad_word] at hlw
  exact ⟨hlw, hload .half true, hload .half false, hload .byte true, hload .byte false⟩

end Sys2Proof.Machine
end

section
/-! SUPPORT. Decoding inverts encoding (spec/30_encoding.md R101 to R108, R157): the fields of an encoded
word are what it was encoded from, and conversely a word is the encoding of its fields. -/

namespace Sys2Proof

/-! ## The offsets of the SB and UJ formats (R105, R107) -/

/-- An offset whose bit 0 is 0 is its upper bits over a 0. -/
theorem extractLsb'_append_zero {n : Nat} {off : BitVec (n + 1)} (h : evenOffset off = true) :
    off.extractLsb' 1 n ++ 0#1 = off := by
  have hlow : off.extractLsb' 0 1 = 0#1 := by
    rw [evenOffset, Bool.not_eq_true', BitVec.getLsbD_eq_extractLsb', beq_eq_false_iff_ne] at h
    exact (BitVec.eq_zero_or_eq_one _).resolve_right h
  rw [← hlow, BitVec.extractLsb'_append_extractLsb']

theorem evenOffset_append_zero {n : Nat} (v : BitVec n) : evenOffset (v ++ 0#1) = true := by
  rw [evenOffset, BitVec.getLsbD_append]
  rfl

/-! ## The fields of an encoded word

A field of a concatenation lies in its upper part or in its lower part, at every level. -/

section
variable (f7 : BitVec 7) (rs2 rs1 rd : RegIdx) (f3 : BitVec 3) (op : BitVec 7)

@[simp] theorem fields_encodeR : let w := encodeR f7 rs2 rs1 f3 rd op
    opcodeOf w = op ∧ funct3Of w = f3 ∧ funct7Of w = f7 ∧ rdOf w = rd ∧ rs1Of w = rs1 ∧ rs2Of w = rs2 := by
  refine ⟨opcodeOf_encodeR .., ?_⟩
  simp (disch := decide) only [funct3Of, funct7Of, rdOf, rs1Of, rs2Of, encodeR,
    BitVec.extractLsb'_append_eq_of_le, BitVec.extractLsb'_append_eq_of_add_le, Nat.reduceSub,
    BitVec.extractLsb'_eq_self, regOf_regBits, and_self]

@[simp] theorem fields_encodeI (imm : BitVec 12) : let w := encodeI imm rs1 f3 rd op
    opcodeOf w = op ∧ funct3Of w = f3 ∧ rdOf w = rd ∧ rs1Of w = rs1 ∧ immIOf w = imm := by
  refine ⟨opcodeOf_encodeI .., ?_⟩
  simp (disch := decide) only [funct3Of, rdOf, rs1Of, immIOf, encodeI,
    BitVec.extractLsb'_append_eq_of_le, BitVec.extractLsb'_append_eq_of_add_le, Nat.reduceSub,
    BitVec.extractLsb'_eq_self, regOf_regBits, and_self]

@[simp] theorem fields_encodeShift (shamt : BitVec 5) : let w := encodeShift f7 shamt rs1 f3 rd op
    opcodeOf w = op ∧ funct3Of w = f3 ∧ funct7Of w = f7 ∧ rdOf w = rd ∧ rs1Of w = rs1
      ∧ shamtOf w = shamt := by
  refine ⟨opcodeOf_encodeShift .., ?_⟩
  simp (disch := decide) only [funct3Of, funct7Of, rdOf, rs1Of, shamtOf, encodeShift,
    BitVec.extractLsb'_append_eq_of_le, BitVec.extractLsb'_append_eq_of_add_le, Nat.reduceSub,
    BitVec.extractLsb'_eq_self, regOf_regBits, and_self]

@[simp] theorem fields_encodeS (imm : BitVec 12) : let w := encodeS imm rs2 rs1 f3 op
    opcodeOf w = op ∧ funct3Of w = f3 ∧ rs1Of w = rs1 ∧ rs2Of w = rs2 ∧ immSOf w = imm := by
  refine ⟨opcodeOf_encodeS .., ?_⟩
  simp (disch := decide) only [funct3Of, rs1Of, rs2Of, immSOf, encodeS,
    BitVec.extractLsb'_append_eq_of_le, BitVec.extractLsb'_append_eq_of_add_le, Nat.reduceSub,
    BitVec.extractLsb'_append_extractLsb'_eq_extractLsb', BitVec.extractLsb'_eq_self, regOf_regBits, and_self]

@[simp] theorem fields_encodeSB (off : BitVec 13) : let w := encodeSB off rs2 rs1 f3 op
    opcodeOf w = op ∧ funct3Of w = f3 ∧ rs1Of w = rs1 ∧ rs2Of w = rs2
      ∧ immSBOf w = off.extractLsb' 1 12 ++ 0#1 := by
  refine ⟨opcodeOf_encodeSB .., ?_⟩
  simp (disch := decide) only [funct3Of, rs1Of, rs2Of, immSBOf, encodeSB,
    BitVec.extractLsb'_append_eq_of_le, BitVec.extractLsb'_append_eq_of_add_le, Nat.reduceSub,
    BitVec.extractLsb'_append_extractLsb'_eq_extractLsb', BitVec.extractLsb'_eq_self, regOf_regBits, and_self]

@[simp] theorem fields_encodeU (imm : BitVec 20) : let w := encodeU imm rd op
    opcodeOf w = op ∧ rdOf w = rd ∧ immUOf w = imm := by
  refine ⟨opcodeOf_encodeU .., ?_⟩
  simp (disch := decide) only [rdOf, immUOf, encodeU,
    BitVec.extractLsb'_append_eq_of_le, BitVec.extractLsb'_append_eq_of_add_le, Nat.reduceSub,
    BitVec.extractLsb'_eq_self, regOf_regBits, and_self]

@[simp] theorem fields_encodeUJ (off : BitVec 21) : let w := encodeUJ off rd op
    opcodeOf w = op ∧ rdOf w = rd ∧ immUJOf w = off.extractLsb' 1 20 ++ 0#1 := by
  refine ⟨opcodeOf_encodeUJ .., ?_⟩
  simp (disch := decide) only [rdOf, immUJOf, encodeUJ,
    BitVec.extractLsb'_append_eq_of_le, BitVec.extractLsb'_append_eq_of_add_le, Nat.reduceSub,
    BitVec.extractLsb'_append_extractLsb'_eq_extractLsb', BitVec.extractLsb'_eq_self, regOf_regBits, and_self]

end

/-- R157: the opcode and the funct fields of an encoding select the instruction's own arm of the decoder,
and the operand fields give its operands back. -/
theorem decode_encode {i : Instr} (h : i.wf = true) : decode (encode i) = .ok i := by
  cases i with
  | add | sub | sll | slt | sltu | xor | srl | sra | or | and => simp [encode, decode, decodeR]
  | addi | slti | sltiu | xori | ori | andi | slli | srli | srai => simp [encode, decode, decodeI]
  | lui | auipc => simp [encode, decode]
  | jal => simp [encode, decode, extractLsb'_append_zero h]
  | jalr => simp [encode, decode, decodeJalr]
  | beq | bne | blt | bge | bltu | bgeu =>
    simp [encode, decode, decodeBranch, extractLsb'_append_zero h]
  | lb | lh | lw | lbu | lhu => simp [encode, decode, decodeLoad]
  | sb | sh | sw => simp [encode, decode, decodeStore]

/-- Settles O1, by `decode_encode`. -/
theorem decodeInvertsEncode : Obligations.DecodeInvertsEncode :=
  fun _ h => decode_encode h

/-! ## The word of its fields

The fields of each format lie side by side and cover the word. -/

section
variable {w : Word} {f7 : BitVec 7} {f3 : BitVec 3} {op : BitVec 7} (hop : opcodeOf w = op)
include hop

theorem encodeR_of_fields (h3 : funct3Of w = f3) (h7 : funct7Of w = f7) :
    encodeR f7 (rs2Of w) (rs1Of w) f3 (rdOf w) op = w := by
  simp (disch := decide) only [← hop, ← h3, ← h7, opcodeOf, funct3Of, funct7Of, rdOf, rs1Of, rs2Of, encodeR,
    regBits_regOf, BitVec.extractLsb'_append_extractLsb'_eq_extractLsb', BitVec.extractLsb'_eq_self]

theorem encodeI_of_fields (h3 : funct3Of w = f3) :
    encodeI (immIOf w) (rs1Of w) f3 (rdOf w) op = w := by
  simp (disch := decide) only [← hop, ← h3, opcodeOf, funct3Of, rdOf, rs1Of, immIOf, encodeI,
    regBits_regOf, BitVec.extractLsb'_append_extractLsb'_eq_extractLsb', BitVec.extractLsb'_eq_self]

/-- A shift amount is the register field rs2, read as a number (R108). -/
theorem encodeShift_of_fields (h3 : funct3Of w = f3) (h7 : funct7Of w = f7) :
    encodeShift f7 (shamtOf w) (rs1Of w) f3 (rdOf w) op = w := by
  have h := encodeR_of_fields hop h3 h7
  rwa [encodeR, rs2Of, regBits_regOf] at h

theorem encodeS_of_fields (h3 : funct3Of w = f3) :
    encodeS (immSOf w) (rs2Of w) (rs1Of w) f3 op = w := by
  simp (disch := decide) only [← hop, ← h3, opcodeOf, funct3Of, rs1Of, rs2Of, immSOf, encodeS,
    regBits_regOf, BitVec.extractLsb'_append_eq_of_le, BitVec.extractLsb'_append_eq_of_add_le, Nat.reduceSub,
    BitVec.extractLsb'_append_extractLsb'_eq_extractLsb', BitVec.extractLsb'_eq_self]

theorem encodeSB_of_fields (h3 : funct3Of w = f3) :
    encodeSB (immSBOf w) (rs2Of w) (rs1Of w) f3 op = w := by
  simp (disch := decide) only [← hop, ← h3, opcodeOf, funct3Of, rs1Of, rs2Of, immSBOf, encodeSB,
    regBits_regOf, BitVec.extractLsb'_append_eq_of_le, BitVec.extractLsb'_append_eq_of_add_le, Nat.reduceSub,
    BitVec.extractLsb'_append_extractLsb'_eq_extractLsb', BitVec.extractLsb'_eq_self]

theorem encodeU_of_fields : encodeU (immUOf w) (rdOf w) op = w := by
  simp (disch := decide) only [← hop, opcodeOf, rdOf, immUOf, encodeU, regBits_regOf,
    BitVec.extractLsb'_append_extractLsb'_eq_extractLsb', BitVec.extractLsb'_eq_self]

theorem encodeUJ_of_fields : encodeUJ (immUJOf w) (rdOf w) op = w := by
  simp (disch := decide) only [← hop, opcodeOf, rdOf, immUJOf, encodeUJ, regBits_regOf,
    BitVec.extractLsb'_append_eq_of_le, BitVec.extractLsb'_append_eq_of_add_le, Nat.reduceSub,
    BitVec.extractLsb'_append_extractLsb'_eq_extractLsb', BitVec.extractLsb'_eq_self]

end

end Sys2Proof
end

section
/-! SUPPORT. What a word decodes to (spec/30_encoding.md R121 to R129, R136, R140): everything the decoder
can answer and when, the illegal words, and the opcode map. -/

namespace Sys2Proof

open Machine

/-! ## What a word decodes to -/

/-- Everything `decode` can answer for `w`, and when. -/
inductive DecodesTo (w : Word) : Decoded → Prop
  | ok (i : Instr) : opcodeOf w ∈ mappedOpcodes → ¬ UnmappedWord w → i.wf = true → encode i = w →
      DecodesTo w (.ok i)
  | illegalOpcode : opcodeOf w ∉ mappedOpcodes → DecodesTo w .illegalOpcode
  | unmappedFunct : opcodeOf w ∈ mappedOpcodes → UnmappedWord w → DecodesTo w .unmappedFunct

/-- The values of a funct3, in the form in which a match's last branch excludes them. -/
theorem funct3_cases : ∀ f : BitVec 3,
    f = 0#3 ∨ f = 1#3 ∨ f = 2#3 ∨ f = 3#3 ∨ f = 4#3 ∨ f = 5#3 ∨ f = 6#3 ∨ f = 7#3 := by decide

section
variable {w : Word}

theorem decodeR_decodesTo (hop : opcodeOf w = 0x33#7) : DecodesTo w (decodeR w) := by
  have hmem : opcodeOf w ∈ mappedOpcodes := by simp [hop, mappedOpcodes]
  unfold decodeR
  split
  · next h7 =>
    have hmapped : ¬ UnmappedWord w := by simp [UnmappedWord, hop, h7]
    split
    iterate 7
      next h3 => exact .ok _ hmem hmapped rfl (encodeR_of_fields hop h3 h7)
    · have hlast : funct3Of w = 7#3 := by have := funct3_cases (funct3Of w); tauto
      exact .ok _ hmem hmapped rfl (encodeR_of_fields hop hlast h7)
  · next h7 =>
    split
    · next h7' =>
      split
      iterate 2
        next h3 =>
          exact .ok _ hmem (by simp [UnmappedWord, hop, h3, h7']) rfl (encodeR_of_fields hop h3 h7')
      · next h0 h5 => exact .unmappedFunct hmem (.inl ⟨hop, .inr ⟨h7', h0, h5⟩⟩)
    · next h7' => exact .unmappedFunct hmem (.inl ⟨hop, .inl ⟨h7, h7'⟩⟩)

theorem decodeI_decodesTo (hop : opcodeOf w = 0x13#7) : DecodesTo w (decodeI w) := by
  have hmem : opcodeOf w ∈ mappedOpcodes := by simp [hop, mappedOpcodes]
  unfold decodeI
  split
  · next h3 => exact .ok _ hmem (by simp [UnmappedWord, hop, h3]) rfl (encodeI_of_fields hop h3)
  · next h3 =>
    split
    · next h7 =>
      exact .ok _ hmem (by simp [UnmappedWord, hop, h3, h7]) rfl (encodeShift_of_fields hop h3 h7)
    · next h7 => exact .unmappedFunct hmem (.inr (.inl ⟨hop, h3, h7⟩))
  iterate 3
    next h3 => exact .ok _ hmem (by simp [UnmappedWord, hop, h3]) rfl (encodeI_of_fields hop h3)
  · next h3 =>
    split
    · next h7 =>
      exact .ok _ hmem (by simp [UnmappedWord, hop, h3, h7]) rfl (encodeShift_of_fields hop h3 h7)
    · next h7 =>
      split
      · next h7' =>
        exact .ok _ hmem (by simp [UnmappedWord, hop, h3, h7']) rfl (encodeShift_of_fields hop h3 h7')
      · next h7' => exact .unmappedFunct hmem (.inr (.inr (.inl ⟨hop, h3, h7, h7'⟩)))
  · next h3 => exact .ok _ hmem (by simp [UnmappedWord, hop, h3]) rfl (encodeI_of_fields hop h3)
  · have hlast : funct3Of w = 7#3 := by have := funct3_cases (funct3Of w); tauto
    exact .ok _ hmem (by simp [UnmappedWord, hop, hlast]) rfl (encodeI_of_fields hop hlast)

theorem decodeLoad_decodesTo (hop : opcodeOf w = 0x03#7) : DecodesTo w (decodeLoad w) := by
  have hmem : opcodeOf w ∈ mappedOpcodes := by simp [hop, mappedOpcodes]
  unfold decodeLoad
  split
  iterate 5
    next h3 => exact .ok _ hmem (by simp [UnmappedWord, hop, h3]) rfl (encodeI_of_fields hop h3)
  · have h3 : funct3Of w = 3#3 ∨ funct3Of w = 6#3 ∨ funct3Of w = 7#3 := by
      have := funct3_cases (funct3Of w); tauto
    exact .unmappedFunct hmem (by simp [UnmappedWord, hop, h3])

theorem decodeStore_decodesTo (hop : opcodeOf w = 0x23#7) : DecodesTo w (decodeStore w) := by
  have hmem : opcodeOf w ∈ mappedOpcodes := by simp [hop, mappedOpcodes]
  have rest : ∀ f : BitVec 3, f ≠ 0#3 → f ≠ 1#3 → f ≠ 2#3 → 3 ≤ f.toNat := by decide
  unfold decodeStore
  split
  iterate 3
    next h3 => exact .ok _ hmem (by simp [UnmappedWord, hop, h3]) rfl (encodeS_of_fields hop h3)
  · next h0 h1 h2 => exact .unmappedFunct hmem (by simp [UnmappedWord, hop, rest _ h0 h1 h2])

theorem decodeBranch_decodesTo (hop : opcodeOf w = 0x63#7) : DecodesTo w (decodeBranch w) := by
  have hmem : opcodeOf w ∈ mappedOpcodes := by simp [hop, mappedOpcodes]
  unfold decodeBranch
  split
  iterate 6
    next h3 =>
      exact .ok _ hmem (by simp [UnmappedWord, hop, h3]) (evenOffset_append_zero _)
        (encodeSB_of_fields hop h3)
  · have h3 : funct3Of w = 2#3 ∨ funct3Of w = 3#3 := by have := funct3_cases (funct3Of w); tauto
    exact .unmappedFunct hmem (by simp [UnmappedWord, hop, h3])

theorem decodeJalr_decodesTo (hop : opcodeOf w = 0x67#7) : DecodesTo w (decodeJalr w) := by
  have hmem : opcodeOf w ∈ mappedOpcodes := by simp [hop, mappedOpcodes]
  unfold decodeJalr
  split
  · next h3 => exact .ok _ hmem (by simp [UnmappedWord, hop, h3]) rfl (encodeI_of_fields hop h3)
  · next h3 => exact .unmappedFunct hmem (by simp [UnmappedWord, hop, h3])

end

theorem decode_decodesTo (w : Word) : DecodesTo w (decode w) := by
  unfold decode
  split
  · next hop => exact decodeR_decodesTo hop
  · next hop => exact decodeI_decodesTo hop
  · next hop => exact decodeLoad_decodesTo hop
  · next hop => exact decodeJalr_decodesTo hop
  · next hop => exact decodeStore_decodesTo hop
  · next hop => exact decodeBranch_decodesTo hop
  · next hop =>
    exact .ok _ (by simp [hop, mappedOpcodes]) (by simp [UnmappedWord, hop]) (evenOffset_append_zero _)
      (encodeUJ_of_fields hop)
  iterate 2
    next hop =>
      exact .ok _ (by simp [hop, mappedOpcodes]) (by simp [UnmappedWord, hop]) rfl (encodeU_of_fields hop)
  · exact .illegalOpcode (by simp_all [mappedOpcodes])

theorem wf_and_encode_of_decode {w : Word} {i : Instr} (h : decode w = .ok i) :
    i.wf = true ∧ encode i = w := by
  have hd := decode_decodesTo w
  rw [h] at hd
  cases hd with
  | ok _ _ _ hwf hw => exact ⟨hwf, hw⟩

/-- Settles O2, by what each branch of the decoder answers. -/
theorem encodeInvertsDecode : Obligations.EncodeInvertsDecode :=
  fun _ _ h => wf_and_encode_of_decode h

/-! ## The illegal words (R122, R140) -/

section
variable {w : Word}

theorem decode_eq_illegalOpcode : decode w = .illegalOpcode ↔ opcodeOf w ∉ mappedOpcodes := by
  have hd := decode_decodesTo w
  generalize decode w = d at hd ⊢
  cases hd with
  | ok _ hmem _ _ _ => exact iff_of_false nofun (not_not.2 hmem)
  | illegalOpcode hmem => exact iff_of_true rfl hmem
  | unmappedFunct hmem _ => exact iff_of_false nofun (not_not.2 hmem)

theorem opcodeOf_mem_of_unmappedWord (h : UnmappedWord w) : opcodeOf w ∈ mappedOpcodes := by
  rcases h with ⟨hop, -⟩ | ⟨hop, -⟩ | ⟨hop, -⟩ | ⟨hop, -⟩ | ⟨hop, -⟩ | ⟨hop, -⟩ | ⟨hop, -⟩ <;>
    simp [hop, mappedOpcodes]

theorem decode_eq_unmappedFunct : decode w = .unmappedFunct ↔ UnmappedWord w := by
  have hd := decode_decodesTo w
  generalize decode w = d at hd ⊢
  cases hd with
  | ok _ _ hmapped _ _ => exact iff_of_false nofun hmapped
  | illegalOpcode hmem => exact iff_of_false nofun fun h => hmem (opcodeOf_mem_of_unmappedWord h)
  | unmappedFunct _ h => exact iff_of_true rfl h

theorem exists_decode_eq_ok (hmem : opcodeOf w ∈ mappedOpcodes) (hmapped : ¬ UnmappedWord w) :
    ∃ i, decode w = .ok i := by
  cases hd : decode w with
  | ok i => exact ⟨i, rfl⟩
  | illegalOpcode => exact absurd hmem (decode_eq_illegalOpcode.1 hd)
  | unmappedFunct => exact absurd (decode_eq_unmappedFunct.1 hd) hmapped

end

/-- A fault of the cycle is the step's fault. -/
theorem faultsWith_of_runCycle {s : State} {reason : FaultReason} (hs : s.status = .running)
    (h : runCycle s = raiseFault reason s) : FaultsWith (step s) s reason :=
  ⟨s.raise reason, (step_of_running hs).trans h, rfl, rfl, rfl, rfl, rfl, rfl⟩

/-- Settles O4: the decode fault is the cycle's. -/
theorem unknownOpcodeRaisesIllegalOpcode : Obligations.UnknownOpcodeRaisesIllegalOpcode := by
  intro s w hw hop
  have hd : decode w = .illegalOpcode := decode_eq_illegalOpcode.2 hop
  exact faultsWith_of_runCycle hw.1 (by simp [runCycle, fetch_of_fetches hw, hd])

/-- Settles O5, by what each branch of the decoder answers. -/
theorem illegalWordsAreExactlyTheListed : Obligations.IllegalWordsAreExactlyTheListed := by
  refine ⟨fun w => decode_eq_illegalOpcode, fun w => decode_eq_unmappedFunct,
    fun w => exists_decode_eq_ok, fun s w hw h => ?_⟩
  have hd : decode w = .unmappedFunct := decode_eq_unmappedFunct.2 h
  exact faultsWith_of_runCycle hw.1 (by simp [runCycle, fetch_of_fetches hw, hd])

/-! ## The opcode map (R136)

Each of the map's three masks keeps the opcode and the funct fields of its format and clears the operands,
so a masked word is the encoding of these fields with every operand 0. -/

/-- A mask keeps a field that it covers. -/
theorem extractLsb'_and_of_allOnes (w : Word) {mask : Word} {lo len : Nat}
    (h : mask.extractLsb' lo len = BitVec.allOnes len) :
    (w &&& mask).extractLsb' lo len = w.extractLsb' lo len :=
  (extractLsb'_of_and rfl lo len h).symm

/-- A mask clears a field that it does not meet. -/
theorem extractLsb'_and_of_zero (w : Word) {mask : Word} {lo len : Nat}
    (h : mask.extractLsb' lo len = 0#len) : (w &&& mask).extractLsb' lo len = 0#len := by
  rw [BitVec.extractLsb'_and, h, BitVec.and_zero]

theorem and_functs (w : Word) :
    w &&& 0xFE00707F = encodeR (funct7Of w) 0 0 (funct3Of w) 0 (opcodeOf w) := by
  rw [← encodeR_of_fields (w := w &&& 0xFE00707F) rfl rfl rfl]
  simp (disch := decide) only [opcodeOf, funct3Of, funct7Of, rdOf, rs1Of, rs2Of,
    extractLsb'_and_of_allOnes, extractLsb'_and_of_zero]
  rfl

theorem and_funct3 (w : Word) : w &&& 0x0000707F = encodeI 0 0 (funct3Of w) 0 (opcodeOf w) := by
  rw [← encodeI_of_fields (w := w &&& 0x0000707F) rfl rfl]
  simp (disch := decide) only [opcodeOf, funct3Of, rdOf, rs1Of, immIOf, extractLsb'_and_of_allOnes,
    extractLsb'_and_of_zero]
  rfl

theorem and_opcode (w : Word) : w &&& 0x0000007F = encodeU 0 0 (opcodeOf w) := by
  rw [← encodeU_of_fields (w := w &&& 0x0000007F) rfl]
  simp (disch := decide) only [opcodeOf, rdOf, immUOf, extractLsb'_and_of_allOnes, extractLsb'_and_of_zero]
  rfl

theorem encode_and_mask (i : Instr) : encode i &&& i.row.mask = i.row.pattern := by
  cases i with
  | add | sub | sll | slt | sltu | xor | srl | sra | or | and | slli | srli | srai =>
    simp only [encode, Instr.row, and_functs, fields_encodeR, fields_encodeShift]
    rfl
  | addi | slti | sltiu | xori | ori | andi | jalr | beq | bne | blt | bge | bltu | bgeu | lb | lh | lw
  | lbu | lhu | sb | sh | sw =>
    simp only [encode, Instr.row, and_funct3, fields_encodeI, fields_encodeS, fields_encodeSB]
    rfl
  | lui | auipc | jal =>
    simp only [encode, Instr.row, and_opcode, fields_encodeU, fields_encodeUJ]
    rfl

theorem row_mem_opcodeMap (i : Instr) : i.row ∈ opcodeMap := by
  cases i <;> simp only [Instr.row] <;> decide

theorem opcodeMap_nodup : opcodeMap.Nodup := by decide

section
variable {w : Word}

/-- What a word decodes to is an instruction of a row that the word matches. -/
theorem and_mask_of_decode {i : Instr} (h : decode w = .ok i) : w &&& i.row.mask = i.row.pattern := by
  rw [← (wf_and_encode_of_decode h).2, encode_and_mask]

/-- A word that matches an instruction's row has the opcode and the funct fields of the row's pattern,
which select an instruction of that row. -/
theorem exists_decode_of_row {i : Instr} (h : w &&& i.row.mask = i.row.pattern) :
    ∃ j, decode w = .ok j ∧ j.row = i.row := by
  cases i <;> simp only [Instr.row] at h
  case add | sub | sll | slt | sltu | xor | srl | sra | or | and =>
    simp only [decode, decodeR, opcodeOf_of_and h (by decide), funct3Of_of_and h (by decide),
      funct7Of_of_and h (by decide)]
    exact ⟨_, rfl, rfl⟩
  case slli | srli | srai =>
    simp only [decode, decodeI, opcodeOf_of_and h (by decide), funct3Of_of_and h (by decide),
      funct7Of_of_and h (by decide)]
    exact ⟨_, rfl, rfl⟩
  case addi | slti | sltiu | xori | ori | andi =>
    simp only [decode, decodeI, opcodeOf_of_and h (by decide), funct3Of_of_and h (by decide)]
    exact ⟨_, rfl, rfl⟩
  case lui | auipc | jal =>
    simp only [decode, opcodeOf_of_and h (by decide)]
    exact ⟨_, rfl, rfl⟩
  case jalr =>
    simp only [decode, decodeJalr, opcodeOf_of_and h (by decide), funct3Of_of_and h (by decide)]
    exact ⟨_, rfl, rfl⟩
  case beq | bne | blt | bge | bltu | bgeu =>
    simp only [decode, decodeBranch, opcodeOf_of_and h (by decide), funct3Of_of_and h (by decide)]
    exact ⟨_, rfl, rfl⟩
  case lb | lh | lw | lbu | lhu =>
    simp only [decode, decodeLoad, opcodeOf_of_and h (by decide), funct3Of_of_and h (by decide)]
    exact ⟨_, rfl, rfl⟩
  case sb | sh | sw =>
    simp only [decode, decodeStore, opcodeOf_of_and h (by decide), funct3Of_of_and h (by decide)]
    exact ⟨_, rfl, rfl⟩

theorem exists_decode_of_mem_opcodeMap {r : OpcodeRow} (hr : r ∈ opcodeMap)
    (h : w &&& r.mask = r.pattern) : ∃ i, decode w = .ok i ∧ i.row = r := by
  obtain ⟨i, -, rfl⟩ := List.mem_map.1 hr
  exact exists_decode_of_row h

end

/-- Settles O3. The rows are disjoint because a word decodes to one instruction, which has one row. -/
theorem opcodeMapDecidesDecoding : Obligations.OpcodeMapDecidesDecoding := by
  refine ⟨fun w i h => ⟨row_mem_opcodeMap i, and_mask_of_decode h⟩,
    fun w r => exists_decode_of_mem_opcodeMap, ?_, fun w hno => ?_⟩
  · refine opcodeMap_nodup.imp_of_mem fun ha hb hne w ⟨hwa, hwb⟩ => hne ?_
    obtain ⟨i, hi, rfl⟩ := exists_decode_of_mem_opcodeMap ha hwa
    obtain ⟨j, hj, rfl⟩ := exists_decode_of_mem_opcodeMap hb hwb
    rw [Decoded.ok.inj (hi.symm.trans hj)]
  · cases hd : decode w with
    | ok i => exact absurd (and_mask_of_decode hd) (hno _ (row_mem_opcodeMap i))
    | illegalOpcode => exact .inl rfl
    | unmappedFunct => exact .inr rfl

end Sys2Proof
end

section
/-! SUPPORT. The ImmediateGenerator (spec/30_encoding.md R110 to R116) and the ControlUnit's bundles (R120
to R134). -/

namespace Sys2Proof.Machine

/-! ## The ImmediateGenerator -/

/-- A field of a field is a field of the whole. -/
theorem extractLsb'_extractLsb' {n : Nat} (v : BitVec n) {lo len k m : Nat} (h : k + m ≤ len) :
    (v.extractLsb' lo len).extractLsb' k m = v.extractLsb' (lo + k) m := by
  refine BitVec.eq_of_getLsbD_eq fun i hi => ?_
  have hlen : k + i < len := by omega
  simp [hi, hlen, Nat.add_assoc]

/-- Settles O7: `slice[k]` is `instr[7+k]`, field by field. -/
theorem immediateGeneratorReadsInstructionBits : Obligations.ImmediateGeneratorReadsInstructionBits := by
  intro w
  simp (disch := decide) only [immGen, extractLsb'_extractLsb', Nat.reduceAdd, and_self]

/-! ## The ControlUnit -/

/-- R134's table is the ControlUnit's output for every encoded instruction. The output is computed from the
opcode and the funct fields, which each format gives. -/
theorem controlUnit_encode (lui : LuiAOperand) (c : Comparison) (i : Instr) :
    ∃ fmt sig, controlUnit lui (encode i) = .ok fmt sig
      ∧ (fmt, resolvePcSel fmt (funct3Of (encode i)) c sig) = bundleTable lui (takenBy c i) i := by
  cases i with
  | add | sub | sll | slt | sltu | xor | srl | sra | or | and =>
    simp only [encode, controlUnit, fields_encodeR]
    exact ⟨_, _, rfl, rfl⟩
  | addi | slti | sltiu | xori | ori | andi | lb | lh | lw | lbu | lhu | jalr =>
    simp only [encode, controlUnit, fields_encodeI]
    exact ⟨_, _, rfl, rfl⟩
  | slli | srli | srai =>
    simp only [encode, controlUnit, fields_encodeShift]
    exact ⟨_, _, rfl, rfl⟩
  | lui | auipc =>
    simp only [encode, controlUnit, fields_encodeU]
    exact ⟨_, _, rfl, rfl⟩
  | jal =>
    simp only [encode, controlUnit, fields_encodeUJ]
    exact ⟨_, _, rfl, rfl⟩
  | beq | bne | blt | bge | bltu | bgeu =>
    simp only [encode, controlUnit, fields_encodeSB]
    exact ⟨_, _, rfl, rfl⟩
  | sb | sh | sw =>
    simp only [encode, controlUnit, fields_encodeS]
    exact ⟨_, _, rfl, rfl⟩

/-- Settles O8; an instruction that is not well-formed has its row's bundle too. -/
theorem controlUnitGivesTheSignalTable : Obligations.ControlUnitGivesTheSignalTable :=
  fun lui c i _ => controlUnit_encode lui c i

end Sys2Proof.Machine
end

section
/-! SUPPORT. The texts of the assembler and of the loader (spec/30_encoding.md R150 to R158). -/

namespace Sys2Proof.Machine

/-! ## The loader -/

/-- Settles O53: in the range the word's value is the integer, and outside it there is no word. -/
theorem loaderAcceptsExactlyThe32BitValues : Obligations.LoaderAcceptsExactlyThe32BitValues := by
  intro v w
  unfold loaderWord
  split
  · next hv =>
    obtain ⟨h0, h32⟩ := hv
    have hval : ((BitVec.ofInt 32 v).toNat : Int) = v := by
      rw [BitVec.toNat_ofInt]; omega
    simp only [Except.ok.injEq, h0, h32, true_and]
    exact ⟨fun h => h ▸ hval, fun h => BitVec.eq_of_toNat_eq (by omega)⟩
  · next hv => exact iff_of_false nofun fun ⟨h0, h32, _⟩ => hv ⟨h0, h32⟩

theorem loadText_eq_ok {text : List Char} {p : List Word} :
    loadText text = .ok p ↔ (textLines text).map loaderLine = p.map .ok := loaderWords_eq_ok

theorem launchText_eq_ok {l : LaunchArgs} {text : List Char} {s : State} :
    launchText l text = .ok s ↔
      ∃ p, loadText text = .ok p ∧ launch { l with program := p } = .ok s := by
  unfold launchText
  cases loadText text with
  | ok p => simp [launchProgram_eq_ok]
  | error f => simp

/-- Settles O55, by what a text loads and what a launch from it is. -/
theorem aTextLaunchesTheWordsOfItsLines : Obligations.ATextLaunchesTheWordsOfItsLines := by
  intro l text s
  simp only [launchText_eq_ok, loadText_eq_ok]

theorem textLines_programText (p : List Word) : textLines (programText p) = p.map wordText := by
  induction p with
  | nil => rfl
  | cons w rest ih => rw [programText, textLines_line (lineFeed_not_mem_wordText w), ih, List.map_cons]

theorem loadText_programText (p : List Word) : loadText (programText p) = .ok p := by
  rw [loadText_eq_ok, textLines_programText, List.map_map]
  exact List.map_congr_left fun w _ => loaderLine_wordText w

theorem launchSource_eq_ok {l : LaunchArgs} {source : List Char} {s : State} :
    launchSource l source = .ok s ↔ ∃ p, assemble (textLines source) = (p, none) ∧
      launch { l with program := p } = .ok s := by
  unfold launchSource
  obtain ⟨p, fault⟩ := assemble (textLines source)
  cases fault with
  | none => simp [launchProgram_eq_ok]
  | some f => simp

/-- Settles O54: what is written loads back, so the launch from the written text has the same words. -/
theorem persistedProgramsLoadBack : Obligations.PersistedProgramsLoadBack := by
  refine ⟨loadText_programText, fun l source s => ?_⟩
  simp only [launchSource_eq_ok, launchText_eq_ok, assembleText]
  constructor
  · rintro ⟨p, hp, hs⟩
    exact ⟨programText p, by rw [hp], p, loadText_programText p, hs⟩
  · rintro ⟨text, htext, p, hp, hs⟩
    obtain ⟨rfl, hfault⟩ := Prod.mk.inj htext
    obtain rfl := Except.ok.inj ((loadText_programText _).symm.trans hp)
    exact ⟨_, Prod.ext rfl hfault, hs⟩

/-! ## The assembler -/

/-- A sequence of two computations gives what the second gives of the first's result. -/
theorem bind_eq_ok {ε α β : Type} {x : Except ε α} {f : α → Except ε β} {b : β} :
    (x >>= f) = .ok b ↔ ∃ a, x = .ok a ∧ f a = .ok b := by
  cases x with
  | error e => exact iff_of_false nofun nofun
  | ok a => exact ⟨fun h => ⟨a, rfl, h⟩, fun ⟨_, ha, h⟩ => Except.ok.inj ha ▸ h⟩

theorem pure_eq_ok {ε α : Type} {a b : α} : (pure a : Except ε α) = .ok b ↔ a = b :=
  Except.ok.injEq a b ▸ Iff.rfl

theorem evenOffset_of_offsetField {w : Nat} {cs : List Char} {off : BitVec w}
    (h : offsetField w cs = .ok off) : evenOffset off = true := by
  obtain ⟨v, -, h⟩ := bind_eq_ok.1 h
  split at h
  · next heven => cases h; exact heven
  · cases h

/-- What a class builds of operands that R154 admits is well-formed. -/
def AsmClass.BuildsWf : AsmClass → Prop
  | .regs mk => ∀ a b c, (mk a b c).wf = true
  | .imm mk => ∀ a b c, (mk a b c).wf = true
  | .memory mk => ∀ a b c, (mk a b c).wf = true
  | .shift mk => ∀ a b c, (mk a b c).wf = true
  | .branch mk => ∀ a b off, evenOffset off = true → (mk a b off).wf = true
  | .upper mk => ∀ a b, (mk a b).wf = true
  | .jump mk => ∀ a off, evenOffset off = true → (mk a off).wf = true
  | _ => True

theorem buildsWf_of_mem : ∀ e ∈ mnemonicTable, e.2.BuildsWf := by
  simp only [mnemonicTable, realMnemonics, pseudoMnemonics, List.forall_mem_append, List.forall_mem_cons,
    AsmClass.BuildsWf, Instr.wf, imp_self, implies_true, List.not_mem_nil, IsEmpty.forall_iff, and_self]

theorem mem_of_lookupName {α : Type} {cs : List Char} {v : α} {table : List (String × α)}
    (h : lookupName cs table = some v) : ∃ name, (name, v) ∈ table := by
  induction table with
  | nil => cases h
  | cons e rest ih =>
    unfold lookupName at h
    split at h
    · cases h
      exact ⟨_, List.mem_cons_self⟩
    · obtain ⟨name, hmem⟩ := ih h
      exact ⟨name, List.mem_cons_of_mem _ hmem⟩

theorem wf_of_assembleOperands {c : AsmClass} {ops : OperandList} {i : Instr} (hc : c.BuildsWf)
    (h : assembleOperands c ops = .ok i) : i.wf = true := by
  unfold assembleOperands at h
  split at h <;> simp only [bind_eq_ok, pure_eq_ok, Except.ok.injEq, reduceCtorEq] at h
  -- R153's classes, whose instruction is well-formed by `hc`
  iterate 5
    next =>
      obtain ⟨a, -, b, -, d, -, rfl⟩ := h
      exact hc a b d
  · obtain ⟨a, -, b, -, d, hd, rfl⟩ := h
    exact hc a b d (evenOffset_of_offsetField hd)
  · obtain ⟨a, -, d, -, rfl⟩ := h
    exact hc a d
  · obtain ⟨a, -, d, hd, rfl⟩ := h
    exact hc a d (evenOffset_of_offsetField hd)
  -- R155's pseudo-instructions, whose expansion is
  · cases h
    rfl
  iterate 4
    next =>
      obtain ⟨a, -, b, -, rfl⟩ := h
      rfl
  iterate 2
    next =>
      obtain ⟨a, -, d, hd, rfl⟩ := h
      exact evenOffset_of_offsetField hd
  · obtain ⟨d, hd, rfl⟩ := h
    exact evenOffset_of_offsetField hd
  · obtain ⟨a, -, rfl⟩ := h
    rfl
  · cases h
    rfl

theorem wf_of_assembleLine {line : List Char} {i : Instr} (h : assembleLine line = .ok (some i)) :
    i.wf = true := by
  unfold assembleLine at h
  split at h
  · cases h
  · next m rest _ =>
    split at h
    · cases h
    · next c hc =>
      split at h
      · cases h
      · next ops _ =>
        obtain ⟨j, hj, h⟩ := bind_eq_ok.1 h
        obtain rfl := Option.some.inj (pure_eq_ok.1 h)
        obtain ⟨name, hmem⟩ := mem_of_lookupName hc
        exact wf_of_assembleOperands (buildsWf_of_mem _ hmem) hj
  · cases h

/-- Settles O52: the mnemonic table's classes build well-formed instructions of the operands they accept. -/
theorem assembledLinesAreWellFormed : Obligations.AssembledLinesAreWellFormed :=
  fun _ _ h => ⟨wf_of_assembleLine h, decode_encode (wf_of_assembleLine h)⟩

end Sys2Proof.Machine
end

section
/-! SUPPORT. The ALU (spec/40_datapath.md R201, R202): its results in numbers and bits, and the part of
operand B that a shift uses. -/

namespace Sys2Proof.Machine

theorem shiftAmount_eq (b : Word) : shiftAmount b = b.toNat % 32 := by
  simp [shiftAmount, BitVec.extractLsb'_toNat]

theorem toNat_alu_sub (a b : Word) : (alu a b .sub).toNat = (2 ^ 32 + a.toNat - b.toNat) % 2 ^ 32 := by
  have hb := b.isLt
  rw [alu, BitVec.toNat_sub]
  congr 1
  omega

theorem toNat_alu_sll (a b : Word) :
    (alu a b .sll).toNat = a.toNat * 2 ^ (b.toNat % 32) % 2 ^ 32 := by
  rw [alu, shiftAmount_eq, BitVec.toNat_shiftLeft, Nat.shiftLeft_eq]

theorem toNat_alu_srl (a b : Word) : (alu a b .srl).toNat = a.toNat / 2 ^ (b.toNat % 32) := by
  rw [alu, shiftAmount_eq, BitVec.toNat_ushiftRight, Nat.shiftRight_eq_div_pow]

/-- A bit that the shift does not vacate comes from above, and a vacated one is `a[31]`. -/
theorem getLsbD_alu_sra (a b : Word) {k : Nat} (hk : k < 32) :
    (alu a b .sra).getLsbD k = a.getLsbD (min (k + b.toNat % 32) 31) := by
  have hin : ¬ 32 ≤ k := by omega
  rw [alu, shiftAmount_eq, BitVec.getLsbD_sshiftRight, BitVec.msb_eq_getLsbD_last]
  by_cases hsum : b.toNat % 32 + k < 32
  · have hmin : min (k + b.toNat % 32) 31 = b.toNat % 32 + k := by omega
    simp [hin, hsum, hmin]
  · have hmin : min (k + b.toNat % 32) 31 = 31 := by omega
    simp [hin, hsum, hmin]

theorem toNat_alu_slt (a b : Word) : (alu a b .slt).toNat = if a.toInt < b.toInt then 1 else 0 :=
  apply_ite BitVec.toNat ..

theorem toNat_alu_sltu (a b : Word) : (alu a b .sltu).toNat = if a.toNat < b.toNat then 1 else 0 :=
  apply_ite BitVec.toNat ..

/-- Settles O27: each operation by its own law. -/
theorem aluResultsInNumbersAndBits : Obligations.AluResultsInNumbersAndBits := fun a b =>
  ⟨BitVec.toNat_add a b, toNat_alu_sub a b, fun _ => BitVec.getLsbD_and, fun _ => BitVec.getLsbD_or,
    fun _ => BitVec.getLsbD_xor, fun _ hk => by simp [alu, hk], toNat_alu_sll a b, toNat_alu_srl a b,
    fun _ hk => getLsbD_alu_sra a b hk, toNat_alu_slt a b, toNat_alu_sltu a b⟩

theorem shiftAmount_congr {b b' : Word} (h : ∀ k, k < 5 → b.getLsbD k = b'.getLsbD k) :
    shiftAmount b = shiftAmount b' :=
  congrArg BitVec.toNat (BitVec.eq_of_getLsbD_eq fun k hk => by simp [hk, h k hk])

/-- Settles O28: operand B enters a shift as its amount only, which is those five bits. -/
theorem shiftsUseFiveBitsOfOperandB : Obligations.ShiftsUseFiveBitsOfOperandB := by
  intro op a b b' hop hbits
  have hamount : shiftAmount b = shiftAmount b' := shiftAmount_congr hbits
  rcases hop with rfl | rfl | rfl <;> simp only [alu, hamount]

end Sys2Proof.Machine
end

section
/-! SUPPORT. The Datapath's cycle (spec/40_datapath.md R210 to R216) against the step: the ControlUnit
raises the decoder's faults, and a cycle driven by a row of R134's table commits as the instructions of that
row do. Then what the cycle says about the step (R214, R217). -/

namespace Sys2Proof.Machine

/-! ## The decode faults (R121 to R129, R135) -/

theorem formatOf_eq_none : ∀ {op : BitVec 7}, formatOf op = none ↔ op ∉ mappedOpcodes := by decide

theorem functMapped_of_unmappedWord {w : Word} (h : UnmappedWord w) :
    functMapped (opcodeOf w) (funct3Of w) (funct7Of w) = false := by
  have hstore : ∀ f : BitVec 3, 3 ≤ f.toNat → (sizeOf3 f).isSome = true → f[2] = true := by decide
  simp only [UnmappedWord, BitVec.ofNat_eq_ofNat, ne_eq] at h
  rcases h with ⟨hop, ⟨h7, h7'⟩ | ⟨h7, h3, h3'⟩⟩ | ⟨hop, h3, h7⟩ | ⟨hop, h3, h7, h7'⟩ |
    ⟨hop, h3 | h3⟩ | ⟨hop, h3 | h3 | h3⟩ | ⟨hop, h3⟩ | ⟨hop, h3⟩
  · simp [functMapped, aluOpOf, hop, h7, h7']
  · simp [functMapped, aluOpOf, hop, h7, h3, h3']
  · simp [functMapped, aluOpOf, hop, h3, h7]
  · simp [functMapped, aluOpOf, hop, h3, h7, h7']
  · simp [functMapped, hop, h3, branchKindOf]
  · simp [functMapped, hop, h3, branchKindOf]
  · simp [functMapped, hop, h3, sizeOf3]
  · simp [functMapped, hop, h3, sizeOf3]
  · simp [functMapped, hop, h3, sizeOf3]
  · simpa [functMapped, hop] using fun _ => hstore _ h3
  · simp [functMapped, hop, h3]

theorem controlUnit_of_illegalOpcode {lui : LuiAOperand} {w : Word} (h : decode w = .illegalOpcode) :
    controlUnit lui w = .illegalOpcode := by
  have hfmt : formatOf (opcodeOf w) = none := formatOf_eq_none.2 (decode_eq_illegalOpcode.1 h)
  simp [controlUnit, hfmt]

theorem controlUnit_of_unmappedFunct {lui : LuiAOperand} {w : Word} (h : decode w = .unmappedFunct) :
    controlUnit lui w = .unmappedFunct := by
  have hw : UnmappedWord w := decode_eq_unmappedFunct.1 h
  have hfmt : formatOf (opcodeOf w) ≠ none := fun hn =>
    formatOf_eq_none.1 hn (opcodeOf_mem_of_unmappedWord hw)
  obtain ⟨fmt, hfmt⟩ := Option.ne_none_iff_exists'.1 hfmt
  simp [controlUnit, hfmt, functMapped_of_unmappedWord hw]

/-! ## The operands (R111 to R115, R280) -/

theorem immGen_eq (w : Word) :
    immGen (w.extractLsb' 7 25) .i = immI (immIOf w) ∧ immGen (w.extractLsb' 7 25) .s = immS (immSOf w)
    ∧ immGen (w.extractLsb' 7 25) .sb = immSB (immSBOf w)
    ∧ immGen (w.extractLsb' 7 25) .u = immU (immUOf w)
    ∧ immGen (w.extractLsb' 7 25) .uj = immUJ (immUJOf w) := by
  obtain ⟨hi, hs, hsb, hu, huj, -⟩ := immediateGeneratorReadsInstructionBits w
  exact ⟨hi, hs, hsb, hu, huj⟩

/-- A shift by the I format's immediate is a shift by the shamt field, its low five bits. -/
theorem alu_immI_shift {op : AluOp} (hop : op = .sll ∨ op = .srl ∨ op = .sra) (a w : Word) :
    alu a (immI (immIOf w)) op = alu a (immShamt (shamtOf w)) op := by
  refine shiftsUseFiveBitsOfOperandB op a _ _ hop fun k hk => ?_
  have h12 : k < 12 := by omega
  have h32 : k < 32 := by omega
  rw [immI, BitVec.getLsbD_signExtend]
  simp [immIOf, immShamt, shamtOf, hk, h12, h32]

theorem rs1Of_encodeU (imm : BitVec 20) (rd : RegIdx) (op : BitVec 7) :
    rs1Of (encodeU imm rd op) = luiRs1 imm := by
  simp (disch := decide) only [rs1Of, luiRs1, encodeU, BitVec.extractLsb'_append_eq_of_le, Nat.reduceSub]

/-- LUI's operand A by its bundle's aSel is LUI_A_OPERAND's (R211, R280). -/
theorem selectA_lui (s : State) (rd : RegIdx) (imm : BitVec 20) :
    selectA (bundleTable s.cfg.luiAOperand false (.lui rd imm)).2.aSel s.pc (s.getReg (luiRs1 imm))
      = luiOperandA imm s := by
  unfold luiOperandA
  cases s.cfg.luiAOperand <;> rfl

/-! ## The signals of a cycle -/

/-- The comparator's outputs in the cycle of `w` (R205). -/
def cycleFlags (s : State) (w : Word) (sig0 : ControlSignals) : Comparison :=
  branchComparator (s.getReg (rs1Of w)) (s.getReg (rs2Of w)) sig0.branchUnsigned

/-- The bundle in the second phase of the cycle of `w` (R212). -/
def cycleSignals (s : State) (w : Word) (fmt : Format) (sig0 : ControlSignals) : ControlSignals :=
  resolvePcSel fmt (funct3Of w) (cycleFlags s w sig0) sig0

section
variable (fmt : Format) (f3 : BitVec 3) (c : Comparison) (sig : ControlSignals)

/-- The second phase sets pcSel alone (R212). -/
theorem resolvePcSel_eq : ∃ p, resolvePcSel fmt f3 c sig = { sig with pcSel := p } := by
  unfold resolvePcSel
  split
  · split
    · exact ⟨_, rfl⟩
    · exact ⟨_, rfl⟩
  · exact ⟨_, rfl⟩

@[simp] theorem resolvePcSel_immFormat : (resolvePcSel fmt f3 c sig).immFormat = sig.immFormat := by
  obtain ⟨p, h⟩ := resolvePcSel_eq fmt f3 c sig
  rw [h]

@[simp] theorem resolvePcSel_branchUnsigned :
    (resolvePcSel fmt f3 c sig).branchUnsigned = sig.branchUnsigned := by
  obtain ⟨p, h⟩ := resolvePcSel_eq fmt f3 c sig
  rw [h]

@[simp] theorem resolvePcSel_regWriteEnable :
    (resolvePcSel fmt f3 c sig).regWriteEnable = sig.regWriteEnable := by
  obtain ⟨p, h⟩ := resolvePcSel_eq fmt f3 c sig
  rw [h]

end

/-- The bundle of a cycle is the instruction's row of R134's table. -/
theorem cycleSignals_encode {s : State} {lui : LuiAOperand} {i : Instr} {fmt : Format}
    {sig0 : ControlSignals} (h : controlUnit lui (encode i) = .ok fmt sig0) :
    cycleSignals s (encode i) fmt sig0
      = (bundleTable lui (takenBy (cycleFlags s (encode i) sig0) i) i).2 := by
  obtain ⟨fmt', sig', hcu, htable⟩ := controlUnit_encode lui (cycleFlags s (encode i) sig0) i
  obtain ⟨rfl, rfl⟩ := ControlOut.ok.inj (h.symm.trans hcu)
  exact congrArg Prod.snd htable

/-! ## The rows of R134's table and the commits

`executeWord_eq` is the cycle from the ALU on, as a function of the second phase's bundle; each lemma after it
is a row of R134's table. -/

/-- The ALU's result in the cycle of `w` with the bundle `sig` (R211). -/
def cycleResult (s : State) (w : Word) (sig : ControlSignals) : Word :=
  alu (selectA sig.aSel s.pc (s.getReg (rs1Of w)))
    (selectB sig.bSel (immGen (w.extractLsb' 7 25) sig.immFormat) (s.getReg (rs2Of w))) sig.aluOp

/-- The commit of a cycle with the bundle `sig` and the data access's answer (R213 to R216). -/
def cycleCommit (s : State) (w : Word) (sig : ControlSignals) (loaded : Word) (mem : Memory) : State :=
  let r := cycleResult s w sig
  let next := nextPc sig.pcSel s.pc r
  if sig.pcSel = .target ∧ ¬ aligned4 next then s.raise (.targetMisaligned next)
  else
    { if sig.regWriteEnable then s.setReg (rdOf w) (selectWb sig.wbSel loaded r s.pc) else s with
      dmem := mem }.setPc next

section
variable {s : State} {w : Word} {fmt : Format} {sig0 : ControlSignals}

theorem executeWord_eq {sig : ControlSignals} (h : cycleSignals s w fmt sig0 = sig) :
    executeWord s w fmt sig0 =
      match dataStage s (opcodeOf w) sig (cycleResult s w sig) (s.getReg (rs2Of w)) with
      | .error reason => s.raise reason
      | .ok (loaded, mem) => cycleCommit s w sig loaded mem := by
  subst h
  simp only [cycleCommit, cycleResult, cycleSignals, resolvePcSel_immFormat]
  rfl

/-- A cycle that accesses no data is its commit (R65). -/
theorem executeWord_of_no_access {sig : ControlSignals} (h : cycleSignals s w fmt sig0 = sig)
    (hop : opcodeOf w ≠ 0x03) (hrw : sig.memRW = .read) :
    executeWord s w fmt sig0 = cycleCommit s w sig 0 s.dmem := by
  rw [executeWord_eq h, dataStage_none _ _ hop hrw]

theorem setReg_dmem_self (rd : RegIdx) (v : Word) :
    { s.setReg rd v with dmem := s.dmem } = s.setReg rd v :=
  (s.setReg_dmem_comm rd v s.dmem).symm

/-- What a register-writing cycle without a target commits. -/
theorem cycleCommit_seq {sig : ControlSignals} {loaded : Word} (hpc : sig.pcSel = .seq)
    (hwrite : sig.regWriteEnable = true) :
    .next (cycleCommit s w sig loaded s.dmem)
      = commitReg (rdOf w) (selectWb sig.wbSel loaded (cycleResult s w sig) s.pc) s := by
  simp only [cycleCommit, hpc, hwrite, reduceCtorEq, false_and, if_false, if_true, setReg_dmem_self]
  rfl

/-- What a cycle with a target commits (R290, R291). -/
theorem cycleCommit_target {sig : ControlSignals} {loaded : Word} (hpc : sig.pcSel = .target) :
    cycleCommit s w sig loaded s.dmem =
      if aligned4 (cycleResult s w sig) then
        (if sig.regWriteEnable then s.setReg (rdOf w) (selectWb sig.wbSel loaded (cycleResult s w sig) s.pc)
          else s).setPc (cycleResult s w sig)
      else s.raise (.targetMisaligned (cycleResult s w sig)) := by
  simp only [cycleCommit, hpc, nextPc, true_and, ite_not]
  cases sig.regWriteEnable with
  | false => rfl
  | true => simp only [if_true, setReg_dmem_self]

theorem executeWord_aluRow {f : Format} {op : AluOp} {a : ASel} {b : BSel} (hop : opcodeOf w ≠ 0x03)
    (h : cycleSignals s w fmt sig0 = aluRow f op a b) :
    .next (executeWord s w fmt sig0) = commitReg (rdOf w) (cycleResult s w (aluRow f op a b)) s := by
  rw [executeWord_of_no_access h hop rfl]
  exact cycleCommit_seq rfl rfl

theorem executeWord_loadRow {size : AccessSize} {uns : Bool} (hop : opcodeOf w = 0x03)
    (h : cycleSignals s w fmt sig0 = loadRow size uns) :
    .next (executeWord s w fmt sig0)
      = commitLoad (rdOf w) (loadAddress s (rs1Of w) (immIOf w)) size uns s := by
  have haddr : cycleResult s w (loadRow size uns) = loadAddress s (rs1Of w) (immIOf w) := by
    simp only [cycleResult, loadRow, selectB, immGen_eq]
    rfl
  rw [executeWord_eq h, hop, haddr, dataStage_load _ _ rfl rfl rfl, commitLoad]
  cases memRead s (loadAddress s (rs1Of w) (immIOf w)) size with
  | error reason => rfl
  | ok m => exact cycleCommit_seq rfl rfl

theorem executeWord_storeRow {size : AccessSize} (h : cycleSignals s w fmt sig0 = storeRow size) :
    .next (executeWord s w fmt sig0)
      = commitStore (storeAddress s (rs1Of w) (immSOf w)) size (s.getReg (rs2Of w)) s := by
  have haddr : cycleResult s w (storeRow size) = storeAddress s (rs1Of w) (immSOf w) := by
    simp only [cycleResult, storeRow, selectB, immGen_eq]
    rfl
  rw [executeWord_eq h, haddr, dataStage_store _ _ _ rfl rfl, commitStore]
  cases memWrite s (storeAddress s (rs1Of w) (immSOf w)) size (s.getReg (rs2Of w)) with
  | error reason => rfl
  | ok mem => rfl

/-- The comparator of a branch's cycle compares as the row's branchUnsigned says. -/
theorem cycleFlags_of_branchRow {taken uns : Bool} (h : cycleSignals s w fmt sig0 = branchRow taken uns) :
    cycleFlags s w sig0 = branchComparator (s.getReg (rs1Of w)) (s.getReg (rs2Of w)) uns := by
  have huns : (cycleSignals s w fmt sig0).branchUnsigned = uns := by rw [h, branchRow]
  rw [cycleFlags, ← huns, cycleSignals, resolvePcSel_branchUnsigned]

theorem executeWord_branchRow {taken uns : Bool} (hop : opcodeOf w ≠ 0x03)
    (h : cycleSignals s w fmt sig0 = branchRow taken uns) :
    .next (executeWord s w fmt sig0) = commitBranch taken (immSBOf w) s := by
  have htarget : cycleResult s w (branchRow taken uns) = s.pc + immSB (immSBOf w) := by
    simp only [cycleResult, branchRow, selectB, immGen_eq]
    rfl
  rw [executeWord_of_no_access h hop rfl]
  cases taken with
  | false => rfl
  | true =>
    rw [cycleCommit_target rfl, htarget]
    exact apply_ite Host.Outcome.next ..

theorem executeWord_jumpRow {f : Format} {a : ASel} (hop : opcodeOf w ≠ 0x03)
    (h : cycleSignals s w fmt sig0 = ⟨a, .imm, .target, .pc4, .read, .add, f, false, true, none, none⟩) :
    .next (executeWord s w fmt sig0) = commitJump (rdOf w)
      (alu (selectA a s.pc (s.getReg (rs1Of w))) (immGen (w.extractLsb' 7 25) f) .add) s := by
  rw [executeWord_of_no_access h hop rfl, cycleCommit_target rfl]
  exact apply_ite Host.Outcome.next ..

end

/-! ## The step -/

/-- The cycle of an encoded instruction gives what the instruction's own meaning gives: the row of R134's
table names the commit, and the fields of the encoding are its operands. -/
theorem exec_eq_executeWord {s : State} {i : Instr} {fmt : Format} {sig0 : ControlSignals}
    (hwf : i.wf = true) (hcu : controlUnit s.cfg.luiAOperand (encode i) = .ok fmt sig0) :
    exec i s = .next (executeWord s (encode i) fmt sig0) := by
  have hsig := cycleSignals_encode (s := s) hcu
  symm
  cases i with
  | add | sub | sll | slt | sltu | xor | srl | sra | or | and =>
    refine (executeWord_aluRow (by simp [encode]) hsig).trans ?_
    simp only [encode, cycleResult, fields_encodeR]
    rfl
  | addi | slti | sltiu | xori | ori | andi =>
    refine (executeWord_aluRow (by simp [encode]) hsig).trans ?_
    simp only [encode, cycleResult, aluRow, selectB, immGen_eq, fields_encodeI]
    rfl
  | slli | srli | srai =>
    refine (executeWord_aluRow (by simp [encode]) hsig).trans ?_
    simp only [encode, cycleResult, aluRow, selectB, immGen_eq, alu_immI_shift, true_or, or_true,
      fields_encodeShift]
    rfl
  | lui rd imm =>
    refine (executeWord_aluRow (by simp [encode]) hsig).trans ?_
    simp only [encode, cycleResult, aluRow, selectB, immGen_eq, fields_encodeU, rs1Of_encodeU]
    exact congrArg (fun a => commitReg rd (alu a (immU imm) .add) s) (selectA_lui s rd imm)
  | auipc =>
    refine (executeWord_aluRow (by simp [encode]) hsig).trans ?_
    simp only [encode, cycleResult, aluRow, selectB, immGen_eq, fields_encodeU]
    rfl
  | jal =>
    refine (executeWord_jumpRow (by simp [encode]) hsig).trans ?_
    simp only [encode, immGen_eq, fields_encodeUJ, extractLsb'_append_zero hwf]
    rfl
  | jalr =>
    refine (executeWord_jumpRow (by simp [encode]) hsig).trans ?_
    simp only [encode, immGen_eq, fields_encodeI]
    rfl
  | beq | bne | blt | bge | bltu | bgeu =>
    refine (executeWord_branchRow (by simp [encode]) hsig).trans ?_
    rw [cycleFlags_of_branchRow hsig]
    simp only [encode, fields_encodeSB, extractLsb'_append_zero hwf]
    rfl
  | lb | lh | lw | lbu | lhu =>
    refine (executeWord_loadRow (by simp [encode]) hsig).trans ?_
    simp only [encode, fields_encodeI]
    rfl
  | sb | sh | sw =>
    refine (executeWord_storeRow hsig).trans ?_
    simp only [encode, fields_encodeS]
    rfl

/-- Settles O9: the fetch is shared, the decode faults agree, and a decoded word is an encoding. -/
theorem stepIsTheDatapathCycle : Obligations.StepIsTheDatapathCycle := by
  intro s hs
  rw [step_of_running hs, runCycle, cycle]
  cases fetch s with
  | error reason => rfl
  | ok w =>
    cases hd : decode w with
    | illegalOpcode => simp [hd, controlUnit_of_illegalOpcode hd, raiseFault]
    | unmappedFunct => simp [hd, controlUnit_of_unmappedFunct hd, raiseFault]
    | ok i =>
      obtain ⟨hwf, rfl⟩ := wf_and_encode_of_decode hd
      obtain ⟨fmt, sig0, hcu, -⟩ := controlUnit_encode s.cfg.luiAOperand ⟨false, false⟩ i
      simp [hd, hcu, exec_eq_executeWord hwf hcu]

/-- Settles O12: a Running state's successor is its cycle. -/
theorem runningStateHasExactlyOneSuccessor : Obligations.RunningStateHasExactlyOneSuccessor := by
  refine ⟨fun s hs => ?_, fun s reason hs t => by simp [step, hs]⟩
  have hstep : step s = .next (cycle s) := stepIsTheDatapathCycle s hs
  refine ⟨cycle s, hstep, fun t ht => Host.Outcome.next.inj (ht.symm.trans hstep), ?_⟩
  cases (cycle s).status with
  | running => exact .inl rfl
  | faulted reason => exact .inr ⟨reason, rfl⟩

/-- Settles O10: after the fetch and the decode the cycle is `exec` alone. -/
theorem stepRunsDecodedInstruction : Obligations.StepRunsDecodedInstruction := by
  intro s w i hw hd
  simp [step_of_running hw.1, runCycle, fetch_of_fetches hw, hd]

end Sys2Proof.Machine
end

section
/-! SUPPORT. What a step that completes has committed: at most the rd of a word with regWriteEnable = 1
(spec/40_datapath.md R214), and the next PC (R215; spec/44_control_transfer.md R290, R291). -/

namespace Sys2Proof.Machine

/-! ## The register write -/

/-- R214: only rd is written, and only with regWriteEnable = 1. -/
theorem cycleCommit_getReg (s : State) (w : Word) (sig : ControlSignals) (loaded : Word) (mem : Memory)
    {r : RegIdx} (h : (cycleCommit s w sig loaded mem).getReg r ≠ s.getReg r) :
    r = rdOf w ∧ r ≠ 0 ∧ sig.regWriteEnable = true := by
  simp only [cycleCommit] at h
  split at h
  · simp at h
  · split at h
    · next hwrite =>
      rw [State.setPc_getReg, State.dmem_getReg, State.getReg_setReg] at h
      by_cases hr : r = rdOf w ∧ r ≠ 0
      · exact ⟨hr.1, hr.2, hwrite⟩
      · simp [hr] at h
    · simp at h

theorem executeWord_getReg {s : State} {w : Word} {fmt : Format} {sig0 : ControlSignals} {r : RegIdx}
    (h : (executeWord s w fmt sig0).getReg r ≠ s.getReg r) :
    r = rdOf w ∧ r ≠ 0 ∧ sig0.regWriteEnable = true := by
  rw [executeWord_eq rfl] at h
  split at h
  · simp at h
  · simpa [cycleSignals] using cycleCommit_getReg _ _ _ _ _ h

/-- regWriteEnable is 0 for the stores and the branches (R130). -/
theorem not_store_or_branch_of_regWriteEnable {lui : LuiAOperand} {w : Word} {fmt : Format}
    {sig0 : ControlSignals} (h : controlUnit lui w = .ok fmt sig0) (hwrite : sig0.regWriteEnable = true) :
    opcodeOf w ≠ 0x23 ∧ opcodeOf w ≠ 0x63 := by
  obtain ⟨hfmt, -, alu, rfl⟩ := controlUnit_eq_ok h
  refine ⟨fun hop => ?_, fun hop => ?_⟩
  all_goals
    rw [hop] at hfmt
    cases hfmt
    simp [signalsFor] at hwrite

/-- Settles O17, on the cycle: the commit is the only place where it writes a register. -/
theorem onlyRdOfAWritingWordChanges : Obligations.OnlyRdOfAWritingWordChanges := by
  intro s t w r hw hst hne
  obtain rfl := Host.Outcome.next.inj (hst.symm.trans (stepIsTheDatapathCycle s hw.1))
  rw [cycle, fetch_of_fetches hw] at hne
  cases hcu : controlUnit s.cfg.luiAOperand w with
  | illegalOpcode => simp [hcu] at hne
  | unmappedFunct => simp [hcu] at hne
  | ok fmt sig0 =>
    simp only [hcu] at hne
    obtain ⟨hr, h0, hwrite⟩ := executeWord_getReg hne
    exact ⟨hr, h0, not_store_or_branch_of_regWriteEnable hcu hwrite⟩

/-! ## The next PC -/

/-- Where an instruction with the given target, if it has one, leaves the PC: a fault where it is, a commit at
the next word or at the target, aligned. -/
inductive PcFollows (s : State) (target : Option Word) : Result → Prop
  | fault (reason : FaultReason) : PcFollows s target (raiseFault reason s)
  | seq (t : State) : t.pc = s.pc + 4 → PcFollows s target (.next t)
  | jump (t : State) : target = some t.pc → aligned4 t.pc → PcFollows s target (.next t)

section
variable (s : State) (target : Option Word)

theorem commitReg_pcFollows (rd : RegIdx) (v : Word) : PcFollows s target (commitReg rd v s) :=
  .seq _ rfl

theorem commitJump_pcFollows (rd : RegIdx) (w : Word) : PcFollows s (some w) (commitJump rd w s) := by
  unfold commitJump
  split
  · next ha => exact .jump _ rfl ha
  · exact .fault _

theorem commitBranch_pcFollows (taken : Bool) (off : BitVec 13) :
    PcFollows s (some (s.pc + immSB off)) (commitBranch taken off s) := by
  simp only [commitBranch]
  split
  · split
    · next ha => exact .jump _ rfl ha
    · exact .fault _
  · exact .seq _ rfl

theorem commitLoad_pcFollows (rd : RegIdx) (ea : Word) (size : AccessSize) (uns : Bool) :
    PcFollows s target (commitLoad rd ea size uns s) := by
  unfold commitLoad
  split
  · exact .fault _
  · exact commitReg_pcFollows ..

theorem commitStore_pcFollows (ea : Word) (size : AccessSize) (v : Word) :
    PcFollows s target (commitStore ea size v s) := by
  unfold commitStore
  split
  · exact .fault _
  · exact .seq _ rfl

end

theorem exec_pcFollows (i : Instr) (s : State) : PcFollows s (targetOf s i) (exec i s) := by
  cases i with
  | add | sub | sll | slt | sltu | xor | srl | sra | or | and => exact commitReg_pcFollows ..
  | addi | slti | sltiu | xori | ori | andi | slli | srli | srai => exact commitReg_pcFollows ..
  | lui | auipc => exact commitReg_pcFollows ..
  | jal | jalr => exact commitJump_pcFollows ..
  | beq | bne | blt | bge | bltu | bgeu => exact commitBranch_pcFollows ..
  | lb | lh | lw | lbu | lhu => exact commitLoad_pcFollows ..
  | sb | sh | sw => exact commitStore_pcFollows ..

/-- Settles O19: the step is the instruction's meaning, whose commit places the PC. -/
theorem pcMovesToTheNextWordOrTheTarget : Obligations.PcMovesToTheNextWordOrTheTarget := by
  intro s t w i hw hd hst hrun
  have hpc := exec_pcFollows i s
  rw [← stepRunsDecodedInstruction s w i hw hd, hst] at hpc
  cases hpc with
  | fault reason => simp at hrun
  | seq _ hnext => exact .inl hnext
  | jump _ htarget ha => exact .inr ⟨htarget, ha⟩

end Sys2Proof.Machine
end

section
/-! SUPPORT. The register-register instructions (spec/41_integer_register.md R240 to R250): a word of such a
row is the encoding of its own fields, and each meaning commits one ALU result to rd. -/

namespace Sys2Proof.Machine

/-! ## The rows (R102, R123, R136) -/

/-- The mask of an R-format row fixes the funct fields and the opcode, so a word of the row is the encoding
of its three register fields. -/
theorem decodesRow_register {pattern : Word} {mk : RegIdx → RegIdx → RegIdx → Instr}
    (hmk : ∀ rd rs1 rs2, (mk rd rs1 rs2).wf = true ∧ encode (mk rd rs1 rs2)
      = encodeR (funct7Of pattern) rs2 rs1 (funct3Of pattern) rd (opcodeOf pattern)) :
    DecodesRow pattern 0xFE00707F fun w => mk (rdOf w) (rs1Of w) (rs2Of w) := by
  intro w hw
  have hop : opcodeOf w = opcodeOf pattern := opcodeOf_of_and hw (by decide)
  have h3 : funct3Of w = funct3Of pattern := funct3Of_of_and hw (by decide)
  have h7 : funct7Of w = funct7Of pattern := funct7Of_of_and hw (by decide)
  obtain ⟨hwf, hencode⟩ := hmk (rdOf w) (rs1Of w) (rs2Of w)
  calc decode w
      = decode (encode (mk (rdOf w) (rs1Of w) (rs2Of w))) := by rw [hencode, encodeR_of_fields hop h3 h7]
    _ = .ok (mk (rdOf w) (rs1Of w) (rs2Of w)) := decode_encode hwf

/-! ## The shifts (R201, R202) -/

theorem alu_sll (a b : Word) : alu a b .sll = a <<< (b.toNat % 32) := by
  rw [alu, shiftAmount_eq]

theorem alu_srl (a b : Word) : alu a b .srl = a >>> (b.toNat % 32) := by
  rw [alu, shiftAmount_eq]

/-- An arithmetic right shift divides the signed value by the power of two, rounding down. -/
theorem alu_sra (a b : Word) : alu a b .sra = BitVec.ofInt 32 (a.toInt / 2 ^ (b.toNat % 32)) := by
  rw [alu, shiftAmount_eq, BitVec.sshiftRight, Int.shiftRight_eq_div_pow, Nat.cast_pow, Nat.cast_ofNat]

/-! ## The statements

Each row is one of `decodesRow_register`. Each meaning is by definition `commitReg` of the ALU's result on
the two registers, whose effect and frame `commitReg_writesBack` states. -/

/-- Settles O33: the commit of the ALU's result, which `alu_sll`, `alu_srl` and `alu_sra` give in terms of the
low five bits of `x[rs2]`. -/
theorem registerShiftsByTheLowFiveBits : Obligations.RegisterShiftsByTheLowFiveBits := by
  refine ⟨decodesRow_register fun _ _ _ => ⟨rfl, rfl⟩,
    decodesRow_register fun _ _ _ => ⟨rfl, rfl⟩,
    decodesRow_register fun _ _ _ => ⟨rfl, rfl⟩, fun rd rs1 rs2 s => ⟨?_, ?_, ?_⟩⟩
  · rw [← alu_sll]
    exact commitReg_writesBack rd _ s
  · rw [← alu_srl]
    exact commitReg_writesBack rd _ s
  · rw [← alu_sra]
    exact commitReg_writesBack rd _ s

/-- Settles O32: the ALU's sum and difference are those of Words. -/
theorem addAndSubWrapModuloTwoTo32 : Obligations.AddAndSubWrapModuloTwoTo32 :=
  ⟨decodesRow_register fun _ _ _ => ⟨rfl, rfl⟩,
    decodesRow_register fun _ _ _ => ⟨rfl, rfl⟩,
    fun rd _ _ s => ⟨commitReg_writesBack rd _ s, commitReg_writesBack rd _ s⟩⟩

/-- Settles O34: the ALU's two comparisons give 1 or 0 by the signed and the unsigned order. -/
theorem sltAndSltuCompareRegisters : Obligations.SltAndSltuCompareRegisters :=
  ⟨decodesRow_register fun _ _ _ => ⟨rfl, rfl⟩,
    decodesRow_register fun _ _ _ => ⟨rfl, rfl⟩,
    fun rd _ _ s => ⟨commitReg_writesBack rd _ s, commitReg_writesBack rd _ s⟩⟩

/-- Settles O35: the ALU's three bitwise operations are those of Words. -/
theorem xorOrAndCombineRegisters : Obligations.XorOrAndCombineRegisters :=
  ⟨decodesRow_register fun _ _ _ => ⟨rfl, rfl⟩,
    decodesRow_register fun _ _ _ => ⟨rfl, rfl⟩,
    decodesRow_register fun _ _ _ => ⟨rfl, rfl⟩, fun rd _ _ s =>
      ⟨commitReg_writesBack rd _ s, commitReg_writesBack rd _ s, commitReg_writesBack rd _ s⟩⟩

end Sys2Proof.Machine
end

section
/-! SUPPORT. The register-immediate instructions (spec/42_integer_immediate.md R260 to R270): a word of such a
row is the encoding of its own fields, or, with another funct7 under a shift's funct3, a decode fault; and
each meaning commits one ALU result to rd. -/

namespace Sys2Proof.Machine

/-! ## The rows (R103, R108, R124, R136) -/

/-- The mask of an I-format row fixes funct3 and the opcode, so a word of the row is the encoding of its
register fields and its immediate. -/
theorem decodesRow_immediate {pattern : Word} {mk : RegIdx → RegIdx → BitVec 12 → Instr}
    (hmk : ∀ rd rs1 imm, (mk rd rs1 imm).wf = true ∧ encode (mk rd rs1 imm)
      = encodeI imm rs1 (funct3Of pattern) rd (opcodeOf pattern)) :
    DecodesRow pattern 0x0000707F fun w => mk (rdOf w) (rs1Of w) (immIOf w) := by
  intro w hw
  have hop : opcodeOf w = opcodeOf pattern := opcodeOf_of_and hw (by decide)
  have h3 : funct3Of w = funct3Of pattern := funct3Of_of_and hw (by decide)
  obtain ⟨hwf, hencode⟩ := hmk (rdOf w) (rs1Of w) (immIOf w)
  calc decode w
      = decode (encode (mk (rdOf w) (rs1Of w) (immIOf w))) := by rw [hencode, encodeI_of_fields hop h3]
    _ = .ok (mk (rdOf w) (rs1Of w) (immIOf w)) := decode_encode hwf

/-- The mask of a shift-immediate row fixes `instr[31:25]` as well, which leaves the shift amount of the
immediate. -/
theorem decodesRow_shift {pattern : Word} {mk : RegIdx → RegIdx → BitVec 5 → Instr}
    (hmk : ∀ rd rs1 shamt, (mk rd rs1 shamt).wf = true ∧ encode (mk rd rs1 shamt)
      = encodeShift (funct7Of pattern) shamt rs1 (funct3Of pattern) rd (opcodeOf pattern)) :
    DecodesRow pattern 0xFE00707F fun w => mk (rdOf w) (rs1Of w) (shamtOf w) := by
  intro w hw
  have hop : opcodeOf w = opcodeOf pattern := opcodeOf_of_and hw (by decide)
  have h3 : funct3Of w = funct3Of pattern := funct3Of_of_and hw (by decide)
  have h7 : funct7Of w = funct7Of pattern := funct7Of_of_and hw (by decide)
  obtain ⟨hwf, hencode⟩ := hmk (rdOf w) (rs1Of w) (shamtOf w)
  calc decode w
      = decode (encode (mk (rdOf w) (rs1Of w) (shamtOf w))) := by
        rw [hencode, encodeShift_of_fields hop h3 h7]
    _ = .ok (mk (rdOf w) (rs1Of w) (shamtOf w)) := decode_encode hwf

/-! ## The unmapped values of `instr[31:25]` (R124, R140, D7) -/

theorem raisesUnmapped_of_unmappedWord {w : Word} (h : UnmappedWord w) : RaisesUnmapped w := by
  obtain ⟨-, -, -, hfault⟩ := illegalWordsAreExactlyTheListed
  exact fun s hw => hfault s w hw h

/-- SLLI has one value of `instr[31:25]`. -/
theorem raisesUnmapped_of_slli_funct {w : Word} (hw : w &&& 0x0000707F = 0x00001013)
    (h7 : funct7Of w ≠ 0x00) : RaisesUnmapped w := by
  have hop : opcodeOf w = 0x13 := opcodeOf_of_and hw (by decide)
  have h3 : funct3Of w = 0b001 := funct3Of_of_and hw (by decide)
  exact raisesUnmapped_of_unmappedWord (.inr (.inl ⟨hop, h3, h7⟩))

/-- SRLI and SRAI share a funct3 and have one value of `instr[31:25]` each. -/
theorem raisesUnmapped_of_srli_srai_funct {w : Word} (hw : w &&& 0x0000707F = 0x00005013)
    (h7 : funct7Of w ≠ 0x00) (h7' : funct7Of w ≠ 0x20) : RaisesUnmapped w := by
  have hop : opcodeOf w = 0x13 := opcodeOf_of_and hw (by decide)
  have h3 : funct3Of w = 0b101 := funct3Of_of_and hw (by decide)
  exact raisesUnmapped_of_unmappedWord (.inr (.inr (.inl ⟨hop, h3, h7, h7'⟩)))

/-! ## The shift amount (R202, R266 to R268) -/

/-- The shamt field is below 32, so the ALU's cut to five bits keeps it. -/
theorem toNat_immShamt_mod (shamt : BitVec 5) : (immShamt shamt).toNat % 32 = shamt.toNat := by
  have hlt : shamt.toNat < 32 := shamt.isLt
  rw [immShamt, BitVec.toNat_setWidth]
  omega

/-! ## The statements

Each meaning is by definition `commitReg` of the ALU's result on `x[rs1]` and the extended immediate, whose
effect and frame `commitReg_writesBack` states. -/

/-- Settles O39: the words by the rows and by R140's list; the results by the ALU's shifts, whose amount is
the shamt field. -/
theorem immediateShiftsByTheShamtField : Obligations.ImmediateShiftsByTheShamtField := by
  refine ⟨decodesRow_shift fun _ _ _ => ⟨rfl, rfl⟩,
    decodesRow_shift fun _ _ _ => ⟨rfl, rfl⟩,
    decodesRow_shift fun _ _ _ => ⟨rfl, rfl⟩,
    fun _ => raisesUnmapped_of_slli_funct, fun _ => raisesUnmapped_of_srli_srai_funct,
    fun rd rs1 shamt s => ?_⟩
  rw [← toNat_immShamt_mod shamt, ← alu_sll, ← alu_srl, ← alu_sra]
  exact ⟨commitReg_writesBack rd _ s, commitReg_writesBack rd _ s, commitReg_writesBack rd _ s⟩

/-- Settles O36: the ALU's sum with the immediate. -/
theorem addiAddsTheSignExtendedImmediate : Obligations.AddiAddsTheSignExtendedImmediate :=
  ⟨decodesRow_immediate fun _ _ _ => ⟨rfl, rfl⟩, fun rd _ _ s => commitReg_writesBack rd _ s⟩

/-- Settles O37: the immediate is sign-extended for both; the ALU then compares signed or unsigned. -/
theorem sltiAndSltiuCompareWithTheImmediate : Obligations.SltiAndSltiuCompareWithTheImmediate :=
  ⟨decodesRow_immediate fun _ _ _ => ⟨rfl, rfl⟩,
    decodesRow_immediate fun _ _ _ => ⟨rfl, rfl⟩,
    fun rd _ _ s => ⟨commitReg_writesBack rd _ s, commitReg_writesBack rd _ s⟩⟩

/-- Settles O38: the ALU's three bitwise operations with the immediate. -/
theorem xoriOriAndiCombineWithTheImmediate : Obligations.XoriOriAndiCombineWithTheImmediate :=
  ⟨decodesRow_immediate fun _ _ _ => ⟨rfl, rfl⟩,
    decodesRow_immediate fun _ _ _ => ⟨rfl, rfl⟩,
    decodesRow_immediate fun _ _ _ => ⟨rfl, rfl⟩, fun rd _ _ s =>
      ⟨commitReg_writesBack rd _ s, commitReg_writesBack rd _ s, commitReg_writesBack rd _ s⟩⟩

end Sys2Proof.Machine
end

section
/-! SUPPORT. The upper-immediate instructions (spec/43_upper_immediate.md R280 to R282): a word of the opcode
is the encoding of its own fields, and each meaning commits one sum with the upper immediate to rd. -/

namespace Sys2Proof.Machine

/-! ## The rows (R106, R136) -/

/-- The mask of a U-format row fixes the opcode alone, so a word of the row is the encoding of its rd and its
upper immediate. -/
theorem decodesRow_upper {pattern : Word} {mk : RegIdx → BitVec 20 → Instr}
    (hmk : ∀ rd imm, (mk rd imm).wf = true ∧ encode (mk rd imm) = encodeU imm rd (opcodeOf pattern)) :
    DecodesRow pattern 0x0000007F fun w => mk (rdOf w) (immUOf w) := by
  intro w hw
  have hop : opcodeOf w = opcodeOf pattern := opcodeOf_of_and hw (by decide)
  obtain ⟨hwf, hencode⟩ := hmk (rdOf w) (immUOf w)
  calc decode w
      = decode (encode (mk (rdOf w) (immUOf w))) := by rw [hencode, encodeU_of_fields hop]
    _ = .ok (mk (rdOf w) (immUOf w)) := decode_encode hwf

/-! ## LUI's operand A (R211, R280) -/

/-- The register that LUI's upper immediate names is the word's own rs1 field. -/
theorem luiRs1_immUOf (w : Word) : luiRs1 (immUOf w) = rs1Of w := by
  rw [← rs1Of_encodeU (immUOf w) (rdOf w) (opcodeOf w), encodeU_of_fields rfl]

theorem luiOperandA_of_zero {s : State} (h : s.cfg.luiAOperand = .zero) (imm : BitVec 20) :
    luiOperandA imm s = 0#32 := by
  simp [luiOperandA, h]

theorem luiOperandA_of_rs1 {s : State} (h : s.cfg.luiAOperand = .rs1) (imm : BitVec 20) :
    luiOperandA imm s = s.getReg (luiRs1 imm) := by
  simp [luiOperandA, h]

/-- LUI writes back the sum of its operand A and the upper immediate, whatever the parameter. -/
theorem exec_lui_writesBack (rd : RegIdx) (imm : BitVec 20) (s : State) :
    WritesBack (exec (.lui rd imm) s) s rd (luiOperandA imm s + immU imm) :=
  commitReg_writesBack rd _ s

/-! ## The statements -/

/-- Settles O40: the parameter enters by operand A alone, and with `zero` the sum is the immediate itself. -/
theorem luiWritesTheUpperImmediate : Obligations.LuiWritesTheUpperImmediate := by
  refine ⟨decodesRow_upper fun _ _ => ⟨rfl, rfl⟩, luiRs1_immUOf, fun rd imm s => ?_⟩
  have hlui := exec_lui_writesBack rd imm s
  constructor
  · intro hzero
    rwa [luiOperandA_of_zero hzero, BitVec.zero_add] at hlui
  · intro hrs1
    rwa [luiOperandA_of_rs1 hrs1] at hlui

/-- Settles O41: operand A is the PC before the commit, which is the AUIPC's own address. -/
theorem auipcAddsTheUpperImmediateToPc : Obligations.AuipcAddsTheUpperImmediateToPc :=
  ⟨decodesRow_upper fun _ _ => ⟨rfl, rfl⟩, fun rd _ s => commitReg_writesBack rd _ s⟩

end Sys2Proof.Machine
end

section
/-! SUPPORT. The control transfers (spec/44_control_transfer.md R290 to R300): a word of such a row is the
encoding of its own fields, a jump commits a link and its target, and a branch commits the PC alone, by the
comparator's condition; a misaligned target faults and commits nothing. -/

namespace Sys2Proof.Machine

/-! ## The rows (R105, R107, R136) -/

/-- The mask of the UJ-format row fixes the opcode alone. The offset that a word's fields make is even, as the
encoding needs. -/
theorem decodesRow_jump {pattern : Word} {mk : RegIdx → BitVec 21 → Instr}
    (hmk : ∀ rd off, (mk rd off).wf = evenOffset off
      ∧ encode (mk rd off) = encodeUJ off rd (opcodeOf pattern)) :
    DecodesRow pattern 0x0000007F fun w => mk (rdOf w) (immUJOf w) := by
  intro w hw
  have hop : opcodeOf w = opcodeOf pattern := opcodeOf_of_and hw (by decide)
  obtain ⟨hwf, hencode⟩ := hmk (rdOf w) (immUJOf w)
  calc decode w
      = decode (encode (mk (rdOf w) (immUJOf w))) := by rw [hencode, encodeUJ_of_fields hop]
    _ = .ok (mk (rdOf w) (immUJOf w)) := decode_encode (hwf.trans (evenOffset_append_zero _))

/-- The mask of an SB-format row fixes funct3 and the opcode. The offset that a word's fields make is even, as
the encoding needs. -/
theorem decodesRow_branch {pattern : Word} {mk : RegIdx → RegIdx → BitVec 13 → Instr}
    (hmk : ∀ rs1 rs2 off, (mk rs1 rs2 off).wf = evenOffset off ∧ encode (mk rs1 rs2 off)
      = encodeSB off rs2 rs1 (funct3Of pattern) (opcodeOf pattern)) :
    DecodesRow pattern 0x0000707F fun w => mk (rs1Of w) (rs2Of w) (immSBOf w) := by
  intro w hw
  have hop : opcodeOf w = opcodeOf pattern := opcodeOf_of_and hw (by decide)
  have h3 : funct3Of w = funct3Of pattern := funct3Of_of_and hw (by decide)
  obtain ⟨hwf, hencode⟩ := hmk (rs1Of w) (rs2Of w) (immSBOf w)
  calc decode w
      = decode (encode (mk (rs1Of w) (rs2Of w) (immSBOf w))) := by rw [hencode, encodeSB_of_fields hop h3]
    _ = .ok (mk (rs1Of w) (rs2Of w) (immSBOf w)) := decode_encode (hwf.trans (evenOffset_append_zero _))

/-- JALR has one funct3 (R129, D13). -/
theorem raisesUnmapped_of_jalr_funct {w : Word} (hop : opcodeOf w = 0x67) (h3 : funct3Of w ≠ 0b000) :
    RaisesUnmapped w :=
  raisesUnmapped_of_unmappedWord (.inr (.inr (.inr (.inr (.inr (.inr ⟨hop, h3⟩))))))

/-! ## What the commits leave (R215, R216, R290, R291) -/

theorem raiseFault_faultsWith (reason : FaultReason) (s : State) :
    FaultsWith (raiseFault reason s) s reason :=
  ⟨s.raise reason, rfl, rfl, rfl, rfl, rfl, rfl, rfl⟩

theorem setPc_onlyMovesPc (s : State) (target : Word) : OnlyMovesPc (.next (s.setPc target)) s target :=
  ⟨s.setPc target, rfl, rfl, fun _ => rfl, fun _ => rfl, fun _ => rfl, rfl, rfl⟩

theorem setReg_setPc_linksAndJumps (rd : RegIdx) (s : State) (target : Word) :
    LinksAndJumps (.next ((s.setReg rd s.pcPlus4).setPc target)) s rd target :=
  ⟨(s.setReg rd s.pcPlus4).setPc target, rfl, fun r => s.getReg_setReg rd r s.pcPlus4, rfl,
    fun _ => by simp, fun _ => by simp, by simp, by simp⟩

/-- A jump's two cases are those of its target's alignment. -/
theorem commitJump_jumpRule (rd : RegIdx) (target : Word) (s : State) :
    JumpRule (commitJump rd target s) s rd target := by
  constructor
  · intro haligned
    rw [commitJump, if_pos haligned]
    exact setReg_setPc_linksAndJumps rd s target
  · intro hmisaligned
    rw [commitJump, if_neg hmisaligned]
    exact raiseFault_faultsWith _ s

/-- A branch looks at its target's alignment only when it is taken. -/
theorem commitBranch_branchRule {taken : Bool} {cond : Prop} (hcond : taken = true ↔ cond) (off : BitVec 13)
    (s : State) : BranchRule (commitBranch taken off s) s off cond := by
  refine ⟨fun hnot => ?_, fun htaken haligned => ?_, fun htaken hmisaligned => ?_⟩
  · rw [commitBranch, if_neg (mt hcond.1 hnot)]
    exact setPc_onlyMovesPc s s.pcPlus4
  · rw [commitBranch, if_pos (hcond.2 htaken), immSB, if_pos haligned]
    exact setPc_onlyMovesPc s _
  · rw [commitBranch, if_pos (hcond.2 htaken), immSB, if_neg hmisaligned]
    exact raiseFault_faultsWith _ s

/-! ## When a branch is taken (R132, R205) -/

section
variable (rs1 rs2 : RegIdx) (s : State)

theorem branchOn_beq (uns : Bool) : branchOn .beq uns rs1 rs2 s = true ↔ s.getReg rs1 = s.getReg rs2 :=
  decide_eq_true_iff

theorem branchOn_blt_signed :
    branchOn .blt false rs1 rs2 s = true ↔ (s.getReg rs1).toInt < (s.getReg rs2).toInt :=
  decide_eq_true_iff

theorem branchOn_blt_unsigned :
    branchOn .blt true rs1 rs2 s = true ↔ (s.getReg rs1).toNat < (s.getReg rs2).toNat :=
  decide_eq_true_iff

/-- BNE is taken exactly where BEQ is not. -/
theorem branchOn_bne (uns : Bool) : branchOn .bne uns rs1 rs2 s = true ↔ s.getReg rs1 ≠ s.getReg rs2 :=
  Bool.not_iff_not.trans (not_congr (branchOn_beq rs1 rs2 s uns))

/-- BGE is taken exactly where BLT is not. -/
theorem branchOn_bge_signed :
    branchOn .bge false rs1 rs2 s = true ↔ (s.getReg rs2).toInt ≤ (s.getReg rs1).toInt :=
  Bool.not_iff_not.trans ((not_congr (branchOn_blt_signed rs1 rs2 s)).trans not_lt)

/-- BGEU is taken exactly where BLTU is not. -/
theorem branchOn_bge_unsigned :
    branchOn .bge true rs1 rs2 s = true ↔ (s.getReg rs2).toNat ≤ (s.getReg rs1).toNat :=
  Bool.not_iff_not.trans ((not_congr (branchOn_blt_unsigned rs1 rs2 s)).trans not_lt)

end

/-! ## The statements

Each meaning is by definition `commitJump` at the ALU's sum, or `commitBranch` on `branchOn`. -/

/-- Settles O42: the PC plus the offset is the target of a jump's commit. -/
theorem jalLinksAndJumpsOrFaults : Obligations.JalLinksAndJumpsOrFaults :=
  ⟨decodesRow_jump fun _ _ => ⟨rfl, rfl⟩, fun rd _ s => commitJump_jumpRule rd _ s⟩

/-- Settles O43: the target is an argument of the jump's commit, so it is formed before the link is written. -/
theorem jalrLinksAndJumpsOrFaults : Obligations.JalrLinksAndJumpsOrFaults :=
  ⟨decodesRow_immediate fun _ _ _ => ⟨rfl, rfl⟩, fun _ => raisesUnmapped_of_jalr_funct,
    fun rd _ _ s => commitJump_jumpRule rd _ s⟩

/-- Settles O44, by the comparator's `equal`. -/
theorem beqAndBneBranchOnEquality : Obligations.BeqAndBneBranchOnEquality :=
  ⟨decodesRow_branch fun _ _ _ => ⟨rfl, rfl⟩, decodesRow_branch fun _ _ _ => ⟨rfl, rfl⟩,
    fun rs1 rs2 off s => ⟨commitBranch_branchRule (branchOn_beq rs1 rs2 s false) off s,
      commitBranch_branchRule (branchOn_bne rs1 rs2 s false) off s⟩⟩

/-- Settles O45, by the comparator's `lessThan`, signed. -/
theorem bltAndBgeBranchOnSignedOrder : Obligations.BltAndBgeBranchOnSignedOrder :=
  ⟨decodesRow_branch fun _ _ _ => ⟨rfl, rfl⟩, decodesRow_branch fun _ _ _ => ⟨rfl, rfl⟩,
    fun rs1 rs2 off s => ⟨commitBranch_branchRule (branchOn_blt_signed rs1 rs2 s) off s,
      commitBranch_branchRule (branchOn_bge_signed rs1 rs2 s) off s⟩⟩

/-- Settles O46, by the comparator's `lessThan`, unsigned. -/
theorem bltuAndBgeuBranchOnUnsignedOrder : Obligations.BltuAndBgeuBranchOnUnsignedOrder :=
  ⟨decodesRow_branch fun _ _ _ => ⟨rfl, rfl⟩, decodesRow_branch fun _ _ _ => ⟨rfl, rfl⟩,
    fun rs1 rs2 off s => ⟨commitBranch_branchRule (branchOn_blt_unsigned rs1 rs2 s) off s,
      commitBranch_branchRule (branchOn_bge_unsigned rs1 rs2 s) off s⟩⟩

end Sys2Proof.Machine
end

section
/-! SUPPORT. The loads and stores (spec/45_loads_stores.md R310 to R320): a word of such a row is the encoding
of its own fields, a load commits what it reads, extended, to rd, and a store commits its bytes; an access that
is misaligned or beyond the capacity faults and commits nothing. -/

namespace Sys2Proof.Machine

/-! ## The rows (R104, R128, R136) -/

/-- The mask of an S-format row fixes funct3 and the opcode, so a word of the row is the encoding of its
register fields and its immediate. -/
theorem decodesRow_store {pattern : Word} {mk : RegIdx → RegIdx → BitVec 12 → Instr}
    (hmk : ∀ rs2 rs1 imm, (mk rs2 rs1 imm).wf = true ∧ encode (mk rs2 rs1 imm)
      = encodeS imm rs2 rs1 (funct3Of pattern) (opcodeOf pattern)) :
    DecodesRow pattern 0x0000707F fun w => mk (rs2Of w) (rs1Of w) (immSOf w) := by
  intro w hw
  have hop : opcodeOf w = opcodeOf pattern := opcodeOf_of_and hw (by decide)
  have h3 : funct3Of w = funct3Of pattern := funct3Of_of_and hw (by decide)
  obtain ⟨hwf, hencode⟩ := hmk (rs2Of w) (rs1Of w) (immSOf w)
  calc decode w
      = decode (encode (mk (rs2Of w) (rs1Of w) (immSOf w))) := by rw [hencode, encodeS_of_fields hop h3]
    _ = .ok (mk (rs2Of w) (rs1Of w) (immSOf w)) := decode_encode hwf

/-! ## The value of a load (R8, R9, R310) -/

/-- Sign extension from the low `w` bits of a Word that holds a `w`-bit value is that of the value. -/
theorem sext32_setWidth {w : Nat} (hw : w ≤ 32) (v : BitVec w) :
    sext32 (v.setWidth 32) w = v.signExtend 32 := by
  rw [sext32, BitVec.setWidth_setWidth_of_le v hw, BitVec.setWidth_eq]

/-- Zero extension from the low `w` bits of a Word that holds a `w`-bit value keeps the Word. -/
theorem zext32_setWidth {w : Nat} (hw : w ≤ 32) (v : BitVec w) :
    zext32 (v.setWidth 32) w = v.setWidth 32 := by
  rw [zext32, BitVec.setWidth_setWidth_of_le v hw, BitVec.setWidth_eq]

/-! ## The accesses (R62 to R64, R316, R320) -/

section
variable {s : State} {ea : Word} {size : AccessSize}

/-- An outcome that raises whatever fault the access's check finds has the two data faults, in their order. -/
theorem accessFaults_of_dataFault {o : Result}
    (h : ∀ reason, dataFault s ea size = some reason → o = raiseFault reason s) :
    AccessFaults o s ea size.bytes := by
  rcases dataFault_cases s ea size with ⟨ha, he⟩ | ⟨ha, hr, he⟩ | ⟨ha, hr, -⟩
  · rw [h _ he]
    exact ⟨fun _ => raiseFault_faultsWith _ s, fun ha' => absurd ha' ha⟩
  · rw [h _ he]
    exact ⟨absurd ha, fun _ _ => raiseFault_faultsWith _ s⟩
  · exact ⟨absurd ha, fun _ hr' => absurd hr hr'.not_ge⟩

/-- A load that does not fault writes back; one that does is its access's fault. -/
theorem commitLoad_loadRule (rd : RegIdx) (uns : Bool) :
    LoadRule (commitLoad rd ea size uns s) s rd ea size.bytes
      (extendLoad size uns (s.dmem.readLE ea.toNat size)) :=
  ⟨fun ha hr => commitLoad_writesBack rd uns (dataFault_eq_none.2 ⟨ha, hr⟩),
    accessFaults_of_dataFault fun _ h => by rw [commitLoad, memRead, h]⟩

/-- A store that does not fault leaves its bytes and no others changed. -/
theorem commitStore_storesBytes (hwf : s.dmem.wf) (v : Word) (h : dataFault s ea size = none) :
    StoresBytes (commitStore ea size v s) s ea v size.bytes := by
  simp only [commitStore, memWrite, h]
  refine ⟨_, rfl, rfl, fun _ => rfl, ⟨fun _ => rfl, rfl, rfl⟩, fun k hk => ?_, fun a ha => ?_⟩
  · rw [State.setPc_dmem, Memory.read_writeLE hwf, if_pos (by omega), Nat.add_sub_cancel_left, byteOf]
  · rw [State.setPc_dmem, Memory.read_writeLE hwf, if_neg (by omega)]

/-- A store that does not fault stores its bytes; one that does is its access's fault. -/
theorem commitStore_storeRule (hwf : s.dmem.wf) (v : Word) :
    StoreRule (commitStore ea size v s) s ea v size.bytes :=
  ⟨fun ha hr => commitStore_storesBytes hwf v (dataFault_eq_none.2 ⟨ha, hr⟩),
    accessFaults_of_dataFault fun _ h => by rw [commitStore, memWrite, h]⟩

end

/-! ## The statements

Each meaning is by definition `commitLoad` or `commitStore` at `x[rs1] + imm`, with its own size and
extension. -/

/-- Settles O47: the byte that `commitLoad` reads is extended from its own 8 bits. -/
theorem byteLoadsExtendTheByte : Obligations.ByteLoadsExtendTheByte := by
  refine ⟨decodesRow_immediate fun _ _ _ => ⟨rfl, rfl⟩, decodesRow_immediate fun _ _ _ => ⟨rfl, rfl⟩,
    fun rd rs1 imm s => ⟨?_, ?_⟩⟩
  · rw [← sext32_setWidth (w := 8) (by decide)]
    exact commitLoad_loadRule rd false
  · rw [← zext32_setWidth (w := 8) (by decide)]
    exact commitLoad_loadRule rd true

/-- Settles O48: the two bytes that `commitLoad` reads are extended from their own 16 bits. -/
theorem halfLoadsExtendTheHalfWord : Obligations.HalfLoadsExtendTheHalfWord := by
  refine ⟨decodesRow_immediate fun _ _ _ => ⟨rfl, rfl⟩, decodesRow_immediate fun _ _ _ => ⟨rfl, rfl⟩,
    fun rd rs1 imm s => ⟨?_, ?_⟩⟩
  · rw [← sext32_setWidth (w := 16) (by decide)]
    exact commitLoad_loadRule rd false
  · rw [← zext32_setWidth (w := 16) (by decide)]
    exact commitLoad_loadRule rd true

/-- Settles O49: the four bytes that `commitLoad` reads are a Word, which extension keeps. -/
theorem wordLoadReadsFourBytes : Obligations.WordLoadReadsFourBytes := by
  refine ⟨decodesRow_immediate fun _ _ _ => ⟨rfl, rfl⟩, fun rd rs1 imm s => ?_⟩
  rw [← extendLoad_word false (_ ++ _)]
  exact commitLoad_loadRule rd false

/-- Settles O50: one rule on stores, at each size. -/
theorem storesWriteExactlyTheirBytes : Obligations.StoresWriteExactlyTheirBytes :=
  ⟨decodesRow_store fun _ _ _ => ⟨rfl, rfl⟩, decodesRow_store fun _ _ _ => ⟨rfl, rfl⟩,
    decodesRow_store fun _ _ _ => ⟨rfl, rfl⟩, fun rs2 _ _ s hwf =>
      ⟨commitStore_storeRule (size := .byte) hwf (s.getReg rs2),
        commitStore_storeRule (size := .half) hwf (s.getReg rs2),
        commitStore_storeRule (size := .word) hwf (s.getReg rs2)⟩⟩

end Sys2Proof.Machine
end

section
/-! SUPPORT. The fatal faults (spec/60_exceptions.md): a step that ends Faulted has changed the status alone
(R400, R402), and for the cause of its own reason, in the order fetch, decode, instruction (R401, R404). -/

namespace Sys2Proof.Machine

/-! ## Faults are precise -/

section
variable {s t : State} {reason : FaultReason}

/-- A commit keeps the status, so an outcome that is Faulted is a raise. -/
theorem eq_raise_of_outcomes (hs : s.status = .running) (ho : Outcomes s t)
    (ht : t.status = .faulted reason) : t = s.raise reason := by
  cases ho with
  | misalignedData _ _ | dataRange _ _ _ _ | target _ _ => rw [← Status.faulted.inj ht]
  | seq _ _ | jump _ _ _ _ | store _ _ _ _ _ => simp [hs] at ht

theorem eq_raise_of_step (hs : s.status = .running) (h : step s = .next t)
    (ht : t.status = .faulted reason) : t = s.raise reason := by
  rcases raise_or_outcomes_of_step h with ⟨reason', rfl⟩ | ho
  · rw [← Status.faulted.inj ht]
  · exact eq_raise_of_outcomes hs ho ht

end

/-- Settles O11: the only Faulted next state is the raise, and a Faulted state has no cycle. -/
theorem faultsArePreciseAndFinal : Obligations.FaultsArePreciseAndFinal := by
  refine ⟨fun s reason hs => ⟨by simp [step, hs], ?_⟩, fun s t reason hs h ht => ?_⟩
  · exact runningStateHasExactlyOneSuccessor.2 s reason hs
  · rw [h, eq_raise_of_step hs h ht]
    exact raiseFault_faultsWith reason s

/-! ## The cause of each reason (R401)

R404's order stands in the causes: a decode fault is of a word that was fetched, a data or target fault of an
instruction that was decoded. -/

/-- The cause for which a step from `s` may raise the reason. -/
def FaultCause (s : State) : FaultReason → Prop
  | .fetchMisaligned a => a = s.pc ∧ s.pc.toNat % 4 ≠ 0
  | .fetchOutOfRange a => a = s.pc ∧ s.pc.toNat % 4 = 0 ∧ s.pc.toNat + 4 > 4 * s.cfg.imemWords
  | .illegalOpcode w => Fetches s w ∧ opcodeOf w ∉ mappedOpcodes
  | .unmappedFunct w => Fetches s w ∧ UnmappedWord w
  | .dataMisaligned ea => ∃ w i n, Fetches s w ∧ decode w = .ok i ∧ accessOf s i = some (ea, n)
      ∧ ea.toNat % 4 ≠ 0
  | .dataOutOfRange ea => ∃ w i n, Fetches s w ∧ decode w = .ok i ∧ accessOf s i = some (ea, n)
      ∧ ea.toNat % 4 = 0 ∧ ea.toNat + n > 4 * s.cfg.dmemWords
  | .targetMisaligned target => ∃ w i, Fetches s w ∧ decode w = .ok i ∧ targetOf s i = some target
      ∧ target.toNat % 4 ≠ 0

/-! ## The fetch (R70) -/

section
variable {s : State}

theorem fetches_of_fetch {w : Word} (hs : s.status = .running) (hf : fetch s = .ok w) : Fetches s w := by
  rcases fetch_cases s with ⟨-, he⟩ | ⟨-, -, he⟩ | ⟨ha, hr, he⟩
  · cases hf.symm.trans he
  · cases hf.symm.trans he
  · cases hf.symm.trans he
    exact fetches_readLE hs ha hr

theorem faultCause_of_fetch_error {reason : FaultReason} (hf : fetch s = .error reason) :
    FaultCause s reason := by
  rcases fetch_cases s with ⟨hn, he⟩ | ⟨ha, hr, he⟩ | ⟨-, -, he⟩
  · cases hf.symm.trans he
    exact ⟨rfl, hn⟩
  · cases hf.symm.trans he
    exact ⟨rfl, ha, hr⟩
  · cases hf.symm.trans he

end

/-! ## The instruction (R62, R63, R291) -/

/-- How an instruction with the given data access and control-transfer target, if it has them, may end: with
the status kept, or with a fault of that access or of that target. -/
inductive CommitsOrFaults (s : State) (access : Option (Word × Nat)) (target : Option Word) : Result → Prop
  | commit (t : State) : t.status = s.status → CommitsOrFaults s access target (.next t)
  | dataMisaligned (ea : Word) (n : Nat) : access = some (ea, n) → ¬ aligned4 ea →
      CommitsOrFaults s access target (raiseFault (.dataMisaligned ea) s)
  | dataOutOfRange (ea : Word) (n : Nat) : access = some (ea, n) → aligned4 ea →
      ea.toNat + n > 4 * s.cfg.dmemWords →
      CommitsOrFaults s access target (raiseFault (.dataOutOfRange ea) s)
  | targetMisaligned (w : Word) : target = some w → ¬ aligned4 w →
      CommitsOrFaults s access target (raiseFault (.targetMisaligned w) s)

section
variable (s : State) (access : Option (Word × Nat)) (target : Option Word)

theorem commitReg_commitsOrFaults (rd : RegIdx) (v : Word) :
    CommitsOrFaults s access target (commitReg rd v s) :=
  .commit _ (by simp)

theorem commitJump_commitsOrFaults (rd : RegIdx) (w : Word) :
    CommitsOrFaults s access (some w) (commitJump rd w s) := by
  unfold commitJump
  split
  · exact .commit _ (by simp)
  · next hn => exact .targetMisaligned w rfl hn

theorem commitBranch_commitsOrFaults (taken : Bool) (off : BitVec 13) :
    CommitsOrFaults s access (some (s.pc + immSB off)) (commitBranch taken off s) := by
  simp only [commitBranch]
  split
  · split
    · exact .commit _ rfl
    · next hn => exact .targetMisaligned _ rfl hn
  · exact .commit _ rfl

/-- The fault that an access's check finds is that access's own. -/
theorem raiseFault_commitsOrFaults {ea : Word} {size : AccessSize} {reason : FaultReason}
    (h : dataFault s ea size = some reason) :
    CommitsOrFaults s (some (ea, size.bytes)) target (raiseFault reason s) := by
  rcases dataFault_cases s ea size with ⟨hn, he⟩ | ⟨ha, hr, he⟩ | ⟨-, -, he⟩ <;> cases h.symm.trans he
  · exact .dataMisaligned ea _ rfl hn
  · exact .dataOutOfRange ea _ rfl ha hr

theorem commitLoad_commitsOrFaults (rd : RegIdx) (ea : Word) (size : AccessSize) (uns : Bool) :
    CommitsOrFaults s (some (ea, size.bytes)) target (commitLoad rd ea size uns s) := by
  unfold commitLoad memRead
  cases hf : dataFault s ea size with
  | some reason => exact raiseFault_commitsOrFaults s target hf
  | none => exact commitReg_commitsOrFaults ..

theorem commitStore_commitsOrFaults (ea : Word) (size : AccessSize) (v : Word) :
    CommitsOrFaults s (some (ea, size.bytes)) target (commitStore ea size v s) := by
  unfold commitStore memWrite
  cases hf : dataFault s ea size with
  | some reason => exact raiseFault_commitsOrFaults s target hf
  | none => exact .commit _ rfl

end

theorem exec_commitsOrFaults (i : Instr) (s : State) :
    CommitsOrFaults s (accessOf s i) (targetOf s i) (exec i s) := by
  cases i with
  | add | sub | sll | slt | sltu | xor | srl | sra | or | and => exact commitReg_commitsOrFaults ..
  | addi | slti | sltiu | xori | ori | andi | slli | srli | srai => exact commitReg_commitsOrFaults ..
  | lui | auipc => exact commitReg_commitsOrFaults ..
  | jal | jalr => exact commitJump_commitsOrFaults ..
  | beq | bne | blt | bge | bltu | bgeu => exact commitBranch_commitsOrFaults ..
  | lb | lbu => exact commitLoad_commitsOrFaults (size := .byte) ..
  | lh | lhu => exact commitLoad_commitsOrFaults (size := .half) ..
  | lw => exact commitLoad_commitsOrFaults (size := .word) ..
  | sb => exact commitStore_commitsOrFaults (size := .byte) ..
  | sh => exact commitStore_commitsOrFaults (size := .half) ..
  | sw => exact commitStore_commitsOrFaults (size := .word) ..

/-! ## The step (R404) -/

section
variable {s t : State} {reason : FaultReason}

theorem faultCause_of_exec {w : Word} {i : Instr} (hw : Fetches s w) (hd : decode w = .ok i)
    (h : exec i s = .next t) (ht : t.status = .faulted reason) : FaultCause s reason := by
  have hends := exec_commitsOrFaults i s
  rw [h] at hends
  cases hends with
  | commit _ hkept => cases ht.symm.trans (hkept.trans hw.1)
  | dataMisaligned ea n haccess hn => cases ht; exact ⟨w, i, n, hw, hd, haccess, hn⟩
  | dataOutOfRange ea n haccess ha hr => cases ht; exact ⟨w, i, n, hw, hd, haccess, ha, hr⟩
  | targetMisaligned target htarget hn => cases ht; exact ⟨w, i, hw, hd, htarget, hn⟩

theorem faultCause_of_step (hs : s.status = .running) (h : step s = .next t)
    (ht : t.status = .faulted reason) : FaultCause s reason := by
  rcases step_outcome hs with ⟨_, hf, he⟩ | ⟨w, hf, hd, he⟩ | ⟨w, hf, hd, he⟩ | ⟨w, i, _, hf, hd, he, -⟩
  · cases h.symm.trans he
    cases ht
    exact faultCause_of_fetch_error hf
  · cases h.symm.trans he
    cases ht
    exact ⟨fetches_of_fetch hs hf, decode_eq_illegalOpcode.1 hd⟩
  · cases h.symm.trans he
    cases ht
    exact ⟨fetches_of_fetch hs hf, decode_eq_unmappedFunct.1 hd⟩
  · exact faultCause_of_exec (fetches_of_fetch hs hf) hd (he.symm.trans h) ht

end

/-- Settles O14: `FaultCause`, read off for each reason. -/
theorem everyFaultHasItsOwnCause : Obligations.EveryFaultHasItsOwnCause := by
  intro s t hs h
  have hcause : ∀ reason, t.status = .faulted reason → FaultCause s reason :=
    fun _ => faultCause_of_step hs h
  exact ⟨fun a => hcause (.fetchMisaligned a), fun a => hcause (.fetchOutOfRange a),
    fun w => hcause (.illegalOpcode w), fun w => hcause (.unmappedFunct w),
    fun ea => hcause (.dataMisaligned ea), fun ea => hcause (.dataOutOfRange ea),
    fun target => hcause (.targetMisaligned target)⟩

end Sys2Proof.Machine
end

section
/-! SUPPORT. Reset and the run (spec/70_reset_and_hazards.md): the state that is launched by default, the two
fetch faults of a bad RESET_PC, what stands behind the end of a program, and how a run ends. Last, words of the
source (spec/95_test_vectors.md) and the Denied access (spec/20_memory.md R68). -/

namespace Sys2Proof.Machine

/-! ## The launch (R44, R450) -/

/-- Settles O21: launching nothing gives the reset state, and RESET_PC = 0 is aligned. -/
theorem resetMeetsTheInvariant : Obligations.ResetMeetsTheInvariant := by
  have hlaunch : launch { cfg := defaultConfig, program := [], regs := Vector.replicate 32 0, data := [] }
      = .ok State.reset := by decide
  exact ⟨hlaunch, .of_launch (by decide) hlaunch⟩

/-- Settles O24: the launched state is Running at RESET_PC, so it faults as every fetch does (O13). -/
theorem badResetPcFaultsAtTheFirstFetch : Obligations.BadResetPcFaultsAtTheFirstFetch := by
  refine ⟨rfl, fun l s hl => ?_⟩
  obtain ⟨-, hpc, hrunning, hcfg, -⟩ := launchStateHoldsWhatTheLaunchSupplies l s hl
  obtain ⟨hmisaligned, hrange, -⟩ := fetchFaultsOrReadsTheWordAtPc.1 s hrunning
  rw [← hpc, ← hcfg]
  exact ⟨rfl, hmisaligned, fun ha hr => hrange ha (by omega)⟩

/-! ## The end of the program (R452) -/

/-- A run keeps the InstructionMemory and the parameters of its launch (R76). -/
theorem exists_launch_of_reachable {l : LaunchArgs} {t : State} (h : Reachable l t) :
    ∃ s, launch l = .ok s ∧ t.imem = s.imem ∧ t.cfg = s.cfg := by
  induction h with
  | start hl => exact ⟨_, hl, rfl, rfl⟩
  | step _ hst ih =>
    obtain ⟨s, hl, himem, hcfg⟩ := ih
    obtain ⟨himem', hcfg'⟩ := imem_cfg_of_step hst
    exact ⟨s, hl, himem'.trans himem, hcfg'.trans hcfg⟩

/-- Behind the program every byte of the InstructionMemory reads as 0, in the whole run (R44, R76). -/
theorem imem_read_of_reachable {l : LaunchArgs} {t : State} (h : Reachable l t) {a : Nat}
    (ha : 4 * l.program.length ≤ a) : t.imem.read a = 0 := by
  obtain ⟨s, hl, himem, -⟩ := exists_launch_of_reachable h
  obtain ⟨-, -, -, -, -, hzero, -⟩ := launchStateHoldsWhatTheLaunchSupplies l s hl
  rw [himem, hzero a ha]

theorem cfg_of_reachable {l : LaunchArgs} {t : State} (h : Reachable l t) : t.cfg = l.cfg := by
  obtain ⟨s, hl, -, hcfg⟩ := exists_launch_of_reachable h
  obtain ⟨-, -, -, hlaunched, -⟩ := launchStateHoldsWhatTheLaunchSupplies l s hl
  exact hcfg.trans hlaunched

/-- Where the program leaves room behind it, its end fetches the word 0. -/
theorem fetches_zero_of_reachable {l : LaunchArgs} {t : State} (h : Reachable l t)
    (hs : t.status = .running) (hpc : t.pc.toNat = 4 * l.program.length)
    (hroom : l.program.length < l.cfg.imemWords) : Fetches t 0 := by
  refine ⟨hs, by omega, by rw [cfg_of_reachable h]; omega, fun k _ => ?_⟩
  exact (imem_read_of_reachable h (by omega)).trans BitVec.extractLsb'_zero.symm

/-- Settles O25: the end of the program fetches the word 0, or lies at the end of the InstructionMemory. -/
theorem runningPastTheProgramFaults : Obligations.RunningPastTheProgramFaults := by
  refine ⟨fun l s hlong hl => ?_, fun l t hreach hs hpc => ⟨fun hroom => ?_, fun hfull => ?_⟩⟩
  · obtain ⟨-, hfits, -, -⟩ := launch_eq_ok hl
    omega
  · exact unknownOpcodeRaisesIllegalOpcode t 0 (fetches_zero_of_reachable hreach hs hpc hroom) (by decide)
  · obtain ⟨-, hrange, -⟩ := fetchFaultsOrReadsTheWordAtPc.1 t hs
    exact hrange (by omega) (by rw [cfg_of_reachable hreach]; omega)

/-! ## The end of a run (R218, R455) -/

/-- How a run of `n` steps from a Running state `s` may end, the driver's count starting at `steps`: at the
bound, or at the first Faulted state. -/
inductive EndsRun (n : Nat) (s : State) (steps : Nat) : RunEnd → Prop
  | bound (t : State) : Sys2Proof.core.run n s = .next t → t.status = .running →
      EndsRun n s steps (.bound t (steps + n))
  | error (reason : FaultReason) (u t : State) (k : Nat) : k < n → Sys2Proof.core.run k s = .next u →
      u.status = .running → Sys2Proof.core.run (k + 1) s = .next t → t.status = .faulted reason →
      EndsRun n s steps (.error reason t (steps + k))

theorem core_run_of_step {s t : State} (h : step s = .next t) (n : Nat) :
    Sys2Proof.core.run (n + 1) s = Sys2Proof.core.run n t := by
  have hcore : Sys2Proof.core.step s = .next t := h
  simp only [Host.Core.run, hcore]

/-- A completed step before a run is one more step, of the run and of the driver's count. -/
theorem EndsRun.of_step {n steps : Nat} {s t : State} {e : RunEnd} (h : step s = .next t)
    (he : EndsRun n t (steps + 1) e) : EndsRun (n + 1) s steps e := by
  have hrun := core_run_of_step h
  cases he with
  | bound v hv hrunning =>
    rw [Nat.add_right_comm]
    exact .bound v ((hrun n).trans hv) hrunning
  | error reason u v k hk hu hrunning hv hfault =>
    rw [Nat.add_right_comm]
    exact .error reason u v (k + 1) (by omega) ((hrun k).trans hu) hrunning ((hrun _).trans hv) hfault

/-- The driver's loop ends a run in one of the two ways, by induction on the steps that are left. -/
theorem runFrom_endsRun (n : Nat) {s : State} (hs : s.status = .running) (steps : Nat) :
    EndsRun n s steps (runFrom n s steps) := by
  induction n generalizing s steps with
  | zero =>
    rw [runFrom, hs]
    exact .bound s rfl hs
  | succ n ih =>
    obtain ⟨t, hstep, -, hrunning | ⟨reason, hfault⟩⟩ := runningStateHasExactlyOneSuccessor.1 s hs
    · simp only [runFrom, hstep, hrunning]
      exact (ih hrunning (steps + 1)).of_step hstep
    · simp only [runFrom, hstep, hfault]
      exact .error reason s t 0 (by omega) rfl hs (core_run_of_step hstep 0) hfault

/-- Settles O26: the two ways a run ends, read off. -/
theorem runEndsAtAFaultOrAtTheBound : Obligations.RunEndsAtAFaultOrAtTheBound := by
  intro n s hs
  have hend := runFrom_endsRun n hs 0
  refine ⟨fun t k h => ?_, fun reason t k h => ?_, fun why h => ?_⟩ <;> rw [← run, h] at hend
  · cases hend with
    | bound _ hrun hrunning => exact ⟨by omega, hrunning, hrun⟩
  · cases hend with
    | error _ u _ k hk hu hrunning hrun hfault =>
      rw [Nat.zero_add]
      exact ⟨hk, hfault, hrun, u, hu, hrunning⟩
  · cases hend

/-! ## Words of the source, and the Denied access (R68) -/

/-- Settles O6, by running the decoder on the seven words. -/
theorem sourceWordsDecodeAsPrinted : Obligations.SourceWordsDecodeAsPrinted := by
  unfold Obligations.SourceWordsDecodeAsPrinted
  decide

theorem dataMemory_read_eq_denied {s : State} {p : MemPort} :
    dataMemory s .read p = .denied ↔ p.readEnable = false := by
  cases h : p.readEnable with
  | true => exact iff_of_false (dataMemory_read_ne_denied h) (by decide)
  | false => exact iff_of_true (by simp [dataMemory, h]) rfl

theorem dataMemory_write_eq_denied {s : State} {p : MemPort} :
    dataMemory s .write p = .denied ↔ p.writeEnable = false := by
  cases h : p.writeEnable with
  | true => exact iff_of_false (dataMemory_write_ne_denied h) (by decide)
  | false => exact iff_of_true (by simp [dataMemory, h]) rfl

/-- Settles O30, each direction by its own enable. -/
theorem accessIsDeniedExactlyWithItsEnableOff : Obligations.AccessIsDeniedExactlyWithItsEnableOff :=
  fun _ _ => ⟨dataMemory_read_eq_denied, dataMemory_write_eq_denied⟩

end Sys2Proof.Machine
end
